-- ==== Sys2Proof/Word.lean ====
section
/-! DEFINITION. The two word types of the engine (00_scope R8): every value is unsigned. -/

namespace Sys2Proof

/-- A word: 64 bits unless a width is stated (00_scope R8). -/
abbrev Word := BitVec 64

/-- A byte of the input buffer or of the digest (30_encoding R95, R96). -/
abbrev Byte := BitVec 8

end Sys2Proof
end

