-- ==== Sys2Proof/Machine/Arith.lean ====
section
/-! DEFINITION. The arithmetic primitives of 40_arithmetic on unsigned 64-bit words. None sets a flag, traps or saturates
(R108). -/

namespace Sys2Proof.Machine

/-- ADD (R100): the sum modulo 2^64. -/
def add (x y : Word) : Word := x + y

/-- NOT (R101): every bit inverted. -/
def bnot (x : Word) : Word := ~~~x

/-- XOR (R102). -/
def bxor (x y : Word) : Word := x ^^^ y

/-- ROTR (R103): right rotation by `n`; the engine uses 19, 23, 38, 41, 56 and 57 only (log entry 23). -/
def rotr (x : Word) (n : Nat) : Word := (x >>> n) ||| (x <<< (64 - n))

/-- MULLO (R104): the low 64 bits of the product. -/
def mullo (x y : Word) : Word := x * y

/-- MULHI (R105): the high 64 bits of the 128-bit product of the unsigned operands. -/
def mulhi (x y : Word) : Word := BitVec.ofNat 64 (x.toNat * y.toNat / 2 ^ 64)

/-- The middle column of the four partial products (R107), an exact natural number. -/
def mulMiddle (x y : Word) : Nat :=
  let xl := x.toNat % 2 ^ 32
  let xh := x.toNat / 2 ^ 32
  let yl := y.toNat % 2 ^ 32
  let yh := y.toNat / 2 ^ 32
  xl * yl / 2 ^ 32 + xl * yh % 2 ^ 32 + xh * yl % 2 ^ 32

/-- The low half by four partial products of 32-bit halves (R107). -/
def mulloByHalves (x y : Word) : Word :=
  BitVec.ofNat 64 (mulMiddle x y % 2 ^ 32 * 2 ^ 32 + x.toNat % 2 ^ 32 * (y.toNat % 2 ^ 32) % 2 ^ 32)

/-- The high half by four partial products of 32-bit halves (R107). -/
def mulhiByHalves (x y : Word) : Word :=
  let xl := x.toNat % 2 ^ 32
  let xh := x.toNat / 2 ^ 32
  let yl := y.toNat % 2 ^ 32
  let yh := y.toNat / 2 ^ 32
  BitVec.ofNat 64 (xh * yh + xl * yh / 2 ^ 32 + xh * yl / 2 ^ 32 + mulMiddle x y / 2 ^ 32)

/-- `LENQ > 32`, the unsigned comparison of INIT (R110, 41_init R121). -/
def isLong (lenq : Word) : Bool := decide (32 < lenq.toNat)

/-- The loop test (R110): at least 32 bytes remain, computed with the subtraction of words. -/
def moreBlocks (lenq off : Word) : Bool := decide (32 ≤ (lenq - off).toNat)

end Sys2Proof.Machine
end

