-- ==== Sys2Proof/Config.lean ====
section
/-! DEFINITION. What an implementation fixes (00_scope R7) and the free values of the model. -/

namespace Sys2Proof

/-- The two byte orders of a serialized word (90_conflicts C3). -/
inductive ByteOrder where
  | bigEndian
  | littleEndian
  deriving DecidableEq, Repr

/-- `PRIME[0..6]`, the parameter of 00_scope R7 with the values of 10_state R27.
PRESUMED: the spec marks the values as from general knowledge (log entry 7, unsafe for claims about the values). -/
def Config.prime : Vector Word 7 :=
  #v[0xEC99BF0D8372CAAB, 0x82434FE90EDCEF39, 0xD4F06DB99D67BE4B, 0xBD9CACC22C6E9571,
     0x9C06FAF4D023E3AB, 0xC060724A8424F345, 0xCB5AF53AE3AAAC31]

/-- `DIGEST_ORDER`, the parameter of 00_scope R7: big-endian, fixed by decision D9 (log entry 8). -/
def Config.digestOrder : ByteOrder := .bigEndian

/-- The free 64-bit words: what a register the spec calls unspecified holds (10_state R29, 70_reset_and_hazards R230).
It has no body, so no proof can rest on a value of it (log entries 4 and 5, safe). -/
opaque Config.freeWord : Nat → Word

/-- The free 6-bit values, for `RES` after a RESET command (70_reset_and_hazards R230; log entry 4, safe). -/
opaque Config.freeResidual : Nat → BitVec 6

end Sys2Proof
end

