-- ==== Sys2Proof/Syntax.lean ====
section
/-! DEFINITION. The eleven rows of spec/opcode_table.json: nine engine operations (format P) and two host commands
(format H). No row has an operand field: the operands are implicit (30_encoding R86) or the pins SEED and LEN (R85). -/

namespace Sys2Proof

/-- One operation of the engine (00_scope R14) or one command of the host (30_encoding R83). -/
inductive Instr where
  | init      -- 41_init R121
  | block     -- 42_block_loop R130
  | squash    -- 43_squash R140
  | dispatch  -- 44_tail_dispatch R150
  | mix4      -- 44_tail_dispatch R154
  | mix3      -- 44_tail_dispatch R155
  | mix2      -- 44_tail_dispatch R156
  | mix1      -- 44_tail_dispatch R157
  | final     -- 45_finalization R170
  | reset     -- 70_reset_and_hazards R230
  | start     -- 41_init R120
  deriving DecidableEq, Repr

end Sys2Proof
end

