-- ==== Sys2Proof/WellFormed.lean ====
section
/-! DEFINITION. What makes a term of the engine's language well-formed. An `Instr` has no operand field, so it has
nothing to check; what can be ill-formed is a phase code, a buffer request, a rotation amount and an input. -/

namespace Sys2Proof

/-- Every instruction is well-formed: both formats are fixed and no field is left to the writer (30_encoding R87, R92). -/
def Instr.wellFormed : Instr → Bool
  | .init | .block | .squash | .dispatch | .mix4 | .mix3 | .mix2 | .mix1 | .final | .reset | .start => true

/-- The phase codes 0 to 10 are defined, 11 to 15 are reserved (30_encoding R82, R90). -/
def phaseCodeWellFormed (code : BitVec 4) : Bool := decide (code.toNat ≤ 10)

/-- A buffer request asks for 1 to 8 bytes (20_memory R53). -/
def requestWellFormed (count : Nat) : Bool := decide (1 ≤ count) && decide (count ≤ 8)

/-- The rotation amounts the engine uses (00_scope R6, 40_arithmetic R103). -/
def rotationWellFormed (amount : Nat) : Bool := [19, 23, 38, 41, 56, 57].contains amount

/-- An input has fewer than 2^64 bytes (20_memory R51, decision D3). -/
def inputLengthWellFormed (length : Nat) : Bool := decide (length < 2 ^ 64)

end Sys2Proof
end

