-- ==== Sys2Proof/Decode.lean ====
section
/-! DEFINITION. The two decoders of 30_encoding (format P, the phase code; format H, the host command vector) and the
encoder. Both decoders are total: a reserved phase code is named as such. -/

namespace Sys2Proof

/-- The eleven defined phases, 30_encoding R82. -/
inductive Phase where
  | idle | init | block | squash | dispatch | mix4 | mix3 | mix2 | mix1 | final | done
  deriving DecidableEq, Repr

/-- The code column of 30_encoding R82. -/
def Phase.code : Phase → BitVec 4
  | .idle     => 0b0000
  | .init     => 0b0001
  | .block    => 0b0010
  | .squash   => 0b0011
  | .dispatch => 0b0100
  | .mix4     => 0b0101
  | .mix3     => 0b0110
  | .mix2     => 0b0111
  | .mix1     => 0b1000
  | .final    => 0b1001
  | .done     => 0b1010

/-- The phase a code names; none for the reserved codes 11 to 15 (30_encoding R82, R90). -/
def Phase.ofCode (code : BitVec 4) : Option Phase :=
  match code.toNat with
  | 0 => some .idle
  | 1 => some .init
  | 2 => some .block
  | 3 => some .squash
  | 4 => some .dispatch
  | 5 => some .mix4
  | 6 => some .mix3
  | 7 => some .mix2
  | 8 => some .mix1
  | 9 => some .final
  | 10 => some .done
  | _ => none

/-- A word of one of the two formats (30_encoding R80): the phase code `PH[3:0]`, or the vector `HC = {RESET, START}`. -/
inductive Encoding where
  | phase (code : BitVec 4)
  | host (command : BitVec 2)
  deriving DecidableEq, Repr

/-- What a word means to the machine. -/
inductive Decoded where
  /-- An operation of the engine or a command of the host. -/
  | instr (i : Instr)
  /-- `PH` is IDLE or DONE: the engine has no step (10_state R28). -/
  | quiescent
  /-- `HC = 00`: no command (30_encoding R84). -/
  | noCommand
  /-- A reserved phase code (30_encoding R90). -/
  | reserved (code : BitVec 4)
  deriving DecidableEq, Repr

/-- One row of the opcode table: a word decodes to `instr` when its bits under `mask` are `pattern`. -/
structure OpcodeRow (width : Nat) where
  mask : BitVec width
  pattern : BitVec width
  instr : Instr
  deriving DecidableEq, Repr

/-- The rows of format P, as spec/opcode_table.json has them. -/
def phaseRows : List (OpcodeRow 4) :=
  [⟨0xF, 0x1, .init⟩, ⟨0xF, 0x2, .block⟩, ⟨0xF, 0x3, .squash⟩, ⟨0xF, 0x4, .dispatch⟩, ⟨0xF, 0x5, .mix4⟩,
   ⟨0xF, 0x6, .mix3⟩, ⟨0xF, 0x7, .mix2⟩, ⟨0xF, 0x8, .mix1⟩, ⟨0xF, 0x9, .final⟩]

/-- The rows of format H, as spec/opcode_table.json has them (30_encoding R84). -/
def hostRows : List (OpcodeRow 2) :=
  [⟨0b10, 0b10, .reset⟩, ⟨0b11, 0b01, .start⟩]

/-- Does a word match a row? -/
def rowMatches {width : Nat} (word : BitVec width) (row : OpcodeRow width) : Bool :=
  decide (word &&& row.mask = row.pattern)

/-- The instruction of the first row that matches. -/
def lookupRow {width : Nat} (word : BitVec width) : List (OpcodeRow width) → Option Instr
  | [] => none
  | row :: rows => if rowMatches word row then some row.instr else lookupRow word rows

/-- The decoder of both formats, total (30_encoding R82, R84, R90, R97). -/
def decode : Encoding → Decoded
  | .phase code =>
    match lookupRow code phaseRows with
    | some i => .instr i
    | none => if code = Phase.idle.code ∨ code = Phase.done.code then .quiescent else .reserved code
  | .host command =>
    match lookupRow command hostRows with
    | some i => .instr i
    | none => .noCommand

/-- The encoder: the code of each operation (30_encoding R82) and the vector of each command (R84). RESET is `1x`; the
encoder writes `10`. -/
def encode : Instr → Encoding
  | .init     => .phase 0b0001
  | .block    => .phase 0b0010
  | .squash   => .phase 0b0011
  | .dispatch => .phase 0b0100
  | .mix4     => .phase 0b0101
  | .mix3     => .phase 0b0110
  | .mix2     => .phase 0b0111
  | .mix1     => .phase 0b1000
  | .final    => .phase 0b1001
  | .reset    => .host 0b10
  | .start    => .host 0b01

/-- The instruction of a decoded word, where it has one. -/
def Decoded.instr? : Decoded → Option Instr
  | .instr i => some i
  | .quiescent => none
  | .noCommand => none
  | .reserved _ => none

/-- The format of a table row that is `nbits` wide, and its word: format H has two bits (30_encoding R83), format P
four (R81). The two formats number the same words, so a width above two bits is read as format P (log entry 21). A
word that has a bit above its format is no word of it. -/
def encodingOfTableWord (nbits w : Nat) : Option Encoding :=
  if nbits ≤ 2 then
    if w < 4 then some (.host (BitVec.ofNat 2 w)) else none
  else
    if w < 16 then some (.phase (BitVec.ofNat 4 w)) else none

/-- The instruction the decoder reads from a word of the opcode table. -/
def decodeTableWord (nbits w : Nat) : Option Instr :=
  match encodingOfTableWord nbits w with
  | some e => (decode e).instr?
  | none => none

end Sys2Proof
end

