-- ==== Sys2Proof/Machine/State.lean ====
section
/-! DEFINITION. The state of one engine and of what its host drives (10_state R20, R31, R37), plain data; why a step can
stop; the state after reset (70_reset_and_hazards R231). -/

namespace Sys2Proof.Machine

/-- The input buffer: (offset, byte) pairs in one canonical form, offsets strictly rising. An offset that is not listed
holds no byte the host has placed (20_memory R51, R72; log entry 9). -/
abbrev Memory := List Host.Cell

/-- The input pins (10_state R31): two strobes and the two operand ports of START. -/
structure Ports where
  /-- `RESET`, `HC[1]` (30_encoding R83). -/
  reset : Bool
  /-- `START`, `HC[0]` (30_encoding R83). -/
  start : Bool
  /-- `SEED[63:0]` (30_encoding R85). -/
  seed : Word
  /-- `LEN[63:0]` (30_encoding R85). -/
  len : Word
  deriving DecidableEq, Repr

/-- One step still to come of the interleaving of host and engine (60_exceptions R204; log entry 1). -/
inductive Move where
  /-- The engine is scheduled. -/
  | engine
  /-- A host step: the host drives the pins and `HC` is sampled (30_encoding R83). -/
  | host (pins : Ports)
  /-- The host places a whole input: the buffer then holds these bytes from offset 0 (70_reset_and_hazards R233). -/
  | place (data : List Byte)
  /-- The host writes bytes into the buffer at an offset (`MemWrite` of 00_scope R12, 70_reset_and_hazards R236). -/
  | write (offset : Word) (data : List Byte)
  deriving DecidableEq, Repr

/-- The state of 10_state R20, the host's buffer and pins, and the model's own two fields. -/
structure State where
  /-- accumulator `x[0]` (10_state R21) -/
  a : Word
  /-- accumulator `x[1]` -/
  b : Word
  /-- accumulator `x[2]`, read on the long path only (10_state R23) -/
  c : Word
  /-- accumulator `x[3]`, read on the long path only (10_state R23) -/
  d : Word
  /-- `OFF`, the byte offset (10_state R24) -/
  off : Word
  /-- `RES`, the residual length 0..32 (10_state R25) -/
  res : BitVec 6
  /-- `LENQ`, the latched length (10_state R26) -/
  lenq : Word
  /-- `SEEDQ`, the latched seed (10_state R26) -/
  seedq : Word
  /-- `PH`, the phase register, the program counter (10_state R28) -/
  ph : BitVec 4
  /-- `DIGEST`, the result register (10_state R29) -/
  digest : Word
  /-- `PRIME[0..6]`, hardwired (10_state R27): no operation writes it -/
  prime : Vector Word 7
  /-- `BUF`, the input buffer, the host's (20_memory R50, R51) -/
  buf : Memory
  /-- the input pins as last driven (10_state R31) -/
  ports : Ports
  /-- the model's own: the coming steps of host and engine, next one first (log entry 1) -/
  schedule : List Move
  /-- the model's own: the number of the next free value (log entry 4) -/
  draws : Nat
  deriving DecidableEq, Repr

/-- Why the machine stops. The engine itself has no fault (60_exceptions R200, R214). -/
inductive Fault where
  /-- Raised by a buffer read that does not lie inside `[0, LENQ)`, which 20_memory R60 lets a model make a fault and
  00_scope R12 leaves undefined. No run that keeps `Safety.Inv` raises it. Safe (log entry 10). -/
  | outOfBounds
  deriving DecidableEq, Repr

/-- The runs to which the spec gives no meaning (60_exceptions R214). -/
inductive Refusal where
  /-- Raised by `exec` for an instruction that has no meaning in the model yet; no arm raises it now. Safe. -/
  | notModelled (mnemonic : String)
  /-- Raised on the engine's turn when `PH` holds a code 11 to 15 (30_encoding R90, 60_exceptions R214(4)).
  Safe (log entry 13). -/
  | reservedPhase (code : BitVec 4)
  /-- Raised by a buffer read, inside `[0, LENQ)`, of a byte the host has not placed (20_memory R72, R214(2)).
  Safe (log entry 9). -/
  | unfilledByte
  /-- Raised by a host step that changes a byte at an offset below `LENQ` while `BUSY = 1` (20_memory R71, R214(3)).
  Safe (log entry 11). -/
  | bufferChangedWhileBusy
  /-- Raised by a host step that places bytes at offsets of 2^64 or more (20_memory R51, R214(1)).
  Safe (log entry 12). -/
  | inputTooLong
  deriving DecidableEq, Repr

/-- The machine right after RESET: `PH = IDLE`, the primes at their constants (70_reset_and_hazards R231).
DESIGN CHOICE: the data registers, which the spec leaves unspecified, the pins, the free-value counter and the empty
schedule are the model's (log entries 1, 3, 4, 22). -/
def State.reset : State where
  a := 0
  b := 0
  c := 0
  d := 0
  off := 0
  res := 0
  lenq := 0
  seedq := 0
  ph := Phase.idle.code
  digest := 0
  prime := Config.prime
  buf := []
  ports := { reset := false, start := false, seed := 0, len := 0 }
  schedule := []
  draws := 0

end Sys2Proof.Machine
end

