-- ==== Sys2Proof/Machine/Ops.lean ====
section
/-! DEFINITION. The named operations over registers and memory. The engine has no exception, so there is no operation that
takes one or returns from one (60_exceptions R200, R205, R206). -/

namespace Sys2Proof.Machine

/-- Go on with the result of a first part, or stop as it stopped. -/
def andThen {α β : Type} (x : Host.Outcome α Fault Refusal) (f : α → Host.Outcome β Fault Refusal) :
    Host.Outcome β Fault Refusal :=
  match x with
  | .next v => f v
  | .fault r => .fault r
  | .refused r => .refused r

/-! ### Registers -/

/-- The four accumulators `x[0..3]` by their aliases (00_scope R9). -/
inductive Acc where
  | a | b | c | d
  deriving DecidableEq, Repr

/-- `x[i]` read (00_scope R9). -/
def State.acc (s : State) : Acc → Word
  | .a => s.a
  | .b => s.b
  | .c => s.c
  | .d => s.d

/-- `x[i] <- v` (00_scope R9). -/
def State.setAcc (s : State) (r : Acc) (v : Word) : State :=
  match r with
  | .a => { s with a := v }
  | .b => { s with b := v }
  | .c => { s with c := v }
  | .d => { s with d := v }

/-- `pc <- p` (00_scope R9, 10_state R28). -/
def State.goto (s : State) (p : Phase) : State := { s with ph := p.code }

/-- `OFF <- v`. -/
def State.setOff (s : State) (v : Word) : State := { s with off := v }

/-- `OFF <- OFF + n` (10_state R24). -/
def State.advance (s : State) (n : Nat) : State := s.setOff (add s.off (BitVec.ofNat 64 n))

/-- `RES <- v` (10_state R25). -/
def State.setRes (s : State) (v : BitVec 6) : State := { s with res := v }

/-- `DIGEST <- v` (10_state R29). -/
def State.setDigest (s : State) (v : Word) : State := { s with digest := v }

/-- `SEEDQ <- SEED`, `LENQ <- LEN` (10_state R26). -/
def State.latch (s : State) (seed len : Word) : State := { s with seedq := seed, lenq := len }

/-- `DIGEST` becomes unspecified: a free value, and the counter moves on (10_state R29, 41_init R120; log entry 5). -/
def State.freeDigest (s : State) : State := { s with digest := Config.freeWord s.draws, draws := s.draws + 1 }

/-- Every data register becomes unspecified: nine free values (70_reset_and_hazards R230, R231; log entry 4). -/
def State.freeData (s : State) : State :=
  { s with
    a := Config.freeWord s.draws
    b := Config.freeWord (s.draws + 1)
    c := Config.freeWord (s.draws + 2)
    d := Config.freeWord (s.draws + 3)
    off := Config.freeWord (s.draws + 4)
    lenq := Config.freeWord (s.draws + 5)
    seedq := Config.freeWord (s.draws + 6)
    digest := Config.freeWord (s.draws + 7)
    res := Config.freeResidual (s.draws + 8)
    draws := s.draws + 9 }

/-- The host drives the input pins (10_state R31). -/
def State.drive (s : State) (p : Ports) : State := { s with ports := p }

/-- The buffer holds what the host has put there (20_memory R51). -/
def State.setBuf (s : State) (m : Memory) : State := { s with buf := m }

/-- The coming steps (log entry 1). -/
def State.setSchedule (s : State) (q : List Move) : State := { s with schedule := q }

/-! ### Memory -/

/-- The canonical form: offsets strictly rising, each a 64-bit offset. -/
abbrev Memory.wf (m : Memory) : Prop :=
  m.Pairwise (fun x y => x.1 < y.1) ∧ ∀ x ∈ m, x.1 < 2 ^ 64

/-- The byte at an offset; none where the host has placed none (20_memory R51, R72; log entry 9). -/
def Memory.byteAt : Memory → Nat → Option Byte
  | [], _ => none
  | (k, v) :: m, i => if k = i then some v else Memory.byteAt m i

/-- Put one byte at an offset, keeping the form. -/
def Memory.setByte : Memory → Nat → Byte → Memory
  | [], i, v => [(i, v)]
  | (k, u) :: m, i, v =>
    if i < k then (i, v) :: (k, u) :: m
    else if i = k then (i, v) :: m
    else (k, u) :: Memory.setByte m i v

/-- Put consecutive bytes from an offset on, the first at the lowest offset. -/
def Memory.writeBytes : Memory → Nat → List Byte → Memory
  | m, _, [] => m
  | m, i, v :: vs => Memory.writeBytes (Memory.setByte m i v) (i + 1) vs

/-- The bytes of an input, from an offset on. -/
def Memory.ofBytesFrom : Nat → List Byte → Memory
  | _, [] => []
  | i, v :: vs => (i, v) :: Memory.ofBytesFrom (i + 1) vs

/-- A buffer that holds an input from offset 0 on (20_memory R51). -/
def Memory.ofBytes (data : List Byte) : Memory := Memory.ofBytesFrom 0 data

/-- The `n` bytes from an offset on; none where one of them has not been placed. -/
def Memory.readBytes (m : Memory) : Nat → Nat → Option (List Byte)
  | _, 0 => some []
  | i, n + 1 =>
    match Memory.byteAt m i, Memory.readBytes m (i + 1) n with
    | some v, some vs => some (v :: vs)
    | _, _ => none

/-- Little-endian assembly (20_memory R55, R56): the first byte is bits [7:0], missing bytes are zero. -/
def leWord : List Byte → Word
  | [] => 0
  | v :: vs => v.setWidth 64 ||| (leWord vs <<< 8)

/-- The `n` low bytes of a word, the lowest first (`MemWrite` of 00_scope R12). -/
def leBytes : Nat → Word → List Byte
  | 0, _ => []
  | n + 1, v => v.setWidth 8 :: leBytes n (v >>> 8)

/-- `MemWrite(addr, n, v)` of 00_scope R12. The engine never uses it; the host may. DESIGN CHOICE: for `n > 8` the bytes
beyond the eighth are 0 (log entry 26). -/
def Memory.memWrite (m : Memory) (addr n : Nat) (v : Word) : Memory := Memory.writeBytes m addr (leBytes n v)

/-- Do two buffers hold the same bytes below an offset? -/
def Memory.agreeBelow (m m' : Memory) (n : Nat) : Bool :=
  decide (m.filter (fun x => decide (x.1 < n)) = m'.filter (fun x => decide (x.1 < n)))

/-- `MemRead(addr, n)` (00_scope R12, 20_memory R55, R56): defined only inside `[0, LENQ)`, so outside it a fault (R60, log
entry 10); a byte inside it that the host has not placed is refused (R72, log entry 9).
DESIGN CHOICE: R12 gives it for `n` in 1..8 only; for other `n`, which no operation requests, it answers 0 for `n = 0` and
the word of the first eight bytes for `n > 8` (log entry 26). -/
def memRead (s : State) (addr : Word) (n : Nat) : Host.Outcome Word Fault Refusal :=
  if addr.toNat + n ≤ s.lenq.toNat then
    match Memory.readBytes s.buf addr.toNat n with
    | some vs => .next (leWord vs)
    | none => .refused .unfilledByte
  else .fault .outOfBounds

end Sys2Proof.Machine
end

