-- ==== Sys2Proof/Machine/Block.lean ====
section
/-! DEFINITION. BLOCK, one step of the block-mixing butterfly network (42_block_loop R130 to R132). -/

namespace Sys2Proof.Machine

/-- The six lines of R130 in the order written. -/
def butterfly (s : State) (w0 w1 w2 w3 : Word) : State :=
  let d02 := add w0 (rotr (add w2 s.d) 56)
  let c13 := add w1 (rotr (add w3 s.c) 19)
  let s := s.setAcc .d (bxor s.d (add s.b (rotr w1 38)))
  let s := s.setAcc .c (bxor s.c (add s.a (rotr w0 57)))
  let s := s.setAcc .b (bxor s.b (mullo s.prime[6] (add c13 w2)))
  s.setAcc .a (bxor s.a (mullo s.prime[5] (add d02 w3)))

/-- After a block: on to the next one while at least 32 bytes remain, else to SQUASH (R130, R132). -/
def afterBlock (s : State) : State :=
  if moreBlocks s.lenq s.off then s.goto .block else s.goto .squash

/-- BLOCK (R130): four full words at `OFF`, the butterfly, `OFF + 32`, the loop test. -/
def execBlock (s : State) : Host.Outcome State Fault Refusal :=
  andThen (memRead s s.off 8) fun w0 =>
  andThen (memRead s (add s.off 8) 8) fun w1 =>
  andThen (memRead s (add s.off 16) 8) fun w2 =>
  andThen (memRead s (add s.off 24) 8) fun w3 =>
  .next (afterBlock ((butterfly s w0 w1 w2 w3).advance 32))

end Sys2Proof.Machine
end

