-- ==== Sys2Proof/Machine/Final.lean ====
section
/-! DEFINITION. FINAL, the finalization avalanche (45_finalization R170). -/

namespace Sys2Proof.Machine

/-- The avalanche of `a` and `b` into one word (R170). -/
def avalanche (prime : Vector Word 7) (a b : Word) : Word :=
  let x := mullo (add a (rotr b 41)) prime[0]
  let y := mullo (add (rotr a 23) b) prime[6]
  let z := bxor x y
  bxor (mullo z prime[5]) (mulhi z prime[5])

/-- FINAL (R170): `DIGEST` and `PH` change in the same operation. -/
def execFinal (s : State) : Host.Outcome State Fault Refusal :=
  .next ((s.setDigest (avalanche s.prime s.a s.b)).goto .done)

end Sys2Proof.Machine
end

