-- ==== Sys2Proof/Machine/Flags.lean ====
section
/-! DEFINITION. The engine has no flags (10_state R30, 40_arithmetic R108). Its status outputs and its other output ports,
all functions of the state (10_state R30, R31). -/

namespace Sys2Proof.Machine

/-- `DONE = 1` exactly when `PH = DONE` (10_state R30). -/
def State.done (s : State) : Bool := decide (s.ph = Phase.done.code)

/-- `BUSY = 1` exactly when `PH` is none of IDLE and DONE (10_state R30). -/
def State.busy (s : State) : Bool := !(decide (s.ph = Phase.idle.code) || s.done)

/-- Byte `i` of a word, byte 0 the most significant: `v[63-8i : 56-8i]` (20_memory R57). -/
def bigEndianByte (v : Word) (i : Nat) : Byte := v.extractLsb' (56 - 8 * i) 8

/-- The eight bytes of a word in a byte order (45_finalization R172; the order is the parameter of 00_scope R7). -/
def serialize (order : ByteOrder) (v : Word) : List Byte :=
  match order with
  | .bigEndian => (List.range 8).map (bigEndianByte v)
  | .littleEndian => (List.range 8).map (fun i => bigEndianByte v (7 - i))

/-- The output `DIGEST`, valid exactly while `DONE = 1`; at other times the read is refused (10_state R29,
70_reset_and_hazards R238; log entry 6). -/
def State.digestOut (s : State) : Option Word := if s.done then some s.digest else none

/-- The output `DIGEST_BYTES[0..7]`, valid when `DIGEST` is (45_finalization R172). -/
def State.digestBytesOut (s : State) : Option (List Byte) := s.digestOut.map (serialize Config.digestOrder)

end Sys2Proof.Machine
end

