-- ==== Sys2Proof/Machine/HostCommand.lean ====
section
/-! DEFINITION. The two commands of the host (41_init R120; 70_reset_and_hazards R230). -/

namespace Sys2Proof.Machine

/-- RESET (70_reset_and_hazards R230): accepted in every phase; the data registers become unspecified, the primes stay. -/
def execReset (s : State) : Host.Outcome State Fault Refusal := .next (s.freeData.goto .idle)

/-- START (41_init R120): in IDLE or DONE it latches the operand ports and begins an invocation; while `BUSY = 1` it is
ignored (70_reset_and_hazards R239). -/
def execStart (s : State) : Host.Outcome State Fault Refusal :=
  .next (if s.busy then s else ((s.latch s.ports.seed s.ports.len).freeDigest).goto .init)

end Sys2Proof.Machine
end

