-- ==== Sys2Proof/Machine/Init.lean ====
section
/-! DEFINITION. INIT, the state initialization (41_init R121). -/

namespace Sys2Proof.Machine

/-- INIT on the long path: `c` and `d` from the seed and the length, then BLOCK; `RES` is not written (R121). -/
def initLong (s : State) : State :=
  ((s.setAcc .c (add (rotr s.lenq 23) (bnot s.seedq))).setAcc .d (add (bnot s.lenq) (rotr s.seedq 19))).goto .block

/-- INIT on the short path: `RES` from the length, then DISPATCH; `c` and `d` are not written (R121). -/
def initShort (s : State) : State := (s.setRes (s.lenq.extractLsb' 0 6)).goto .dispatch

/-- INIT (R121). -/
def execInit (s : State) : Host.Outcome State Fault Refusal :=
  let t := ((s.setAcc .a s.seedq).setAcc .b s.lenq).setOff 0
  .next (if isLong s.lenq then initLong t else initShort t)

end Sys2Proof.Machine
end

