-- ==== Sys2Proof/Machine/Squash.lean ====
section
/-! DEFINITION. SQUASH, the fold of `c, d` into `a, b` (43_squash R140). -/

namespace Sys2Proof.Machine

/-- SQUASH (R140): the two lines in order, `RES = LENQ mod 32`, to DISPATCH. -/
def execSquash (s : State) : Host.Outcome State Fault Refusal :=
  let s := s.setAcc .a (bxor s.a (mullo s.prime[6] (add s.c (rotr s.d 23))))
  let s := s.setAcc .b (bxor s.b (mullo s.prime[5] (add (rotr s.c 19) s.d)))
  .next ((s.setRes ((s.lenq.extractLsb' 0 5).setWidth 6)).goto .dispatch)

end Sys2Proof.Machine
end

