-- ==== Sys2Proof/Machine/Operands.lean ====
section
/-! DEFINITION. The implicit operands of the operations: the full word, the partial word, the band and partial-length
decoders, the mixup step and the buffer requests (30_encoding R86, R88, R89; 44_tail_dispatch R151 to R153). -/

namespace Sys2Proof.Machine

/-- The partial-length decoder (30_encoding R89): `RES[2:0]`, or 8 when that is 0; for `RES` outside 1 to 32, which no run
reaches, too (log entry 15). -/
def partialLength (res : BitVec 6) : Nat :=
  let low := (res.extractLsb' 0 3).toNat
  if low = 0 then 8 else low

/-- The band decoder (30_encoding R88, 44_tail_dispatch R150); 33 to 63 cannot occur and fall under the first comparison
(log entry 14). -/
def firstTailPhase (res : BitVec 6) : Phase :=
  if 25 ≤ res.toNat then .mix4
  else if 17 ≤ res.toNat then .mix3
  else if 9 ≤ res.toNat then .mix2
  else if 1 ≤ res.toNat then .mix1
  else .final

/-- FETCH64 (44_tail_dispatch R152): the full word at `OFF`, and the state with `OFF` moved on by 8. -/
def fetch64 (s : State) : Host.Outcome (Word × State) Fault Refusal :=
  andThen (memRead s s.off 8) fun v => .next (v, s.advance 8)

/-- FETCHTAIL (44_tail_dispatch R153): the zero-extended partial word of `k` bytes at `OFF`, and `OFF` moved on by `k`. -/
def fetchTail (s : State) : Host.Outcome (Word × State) Fault Refusal :=
  andThen (memRead s s.off (partialLength s.res)) fun v => .next (v, s.advance (partialLength s.res))

/-- `mixup(t, o, v, p)` (44_tail_dispatch R151), both halves from one product of the same sum. -/
def mixup (s : State) (t o : Acc) (v p : Word) : State :=
  let sum := add (s.acc o) v
  let lo := mullo sum p
  let hi := mulhi sum p
  let s := s.setAcc t (bxor (s.acc t) lo)
  s.setAcc o (add (s.acc o) hi)

/-- The requests on the buffer port that an instruction issues, in order: `(addr, n)` (20_memory R53, 30_encoding R86). -/
def bufferRequests (s : State) : Instr → List (Word × Nat)
  | .block => [(s.off, 8), (add s.off 8, 8), (add s.off 16, 8), (add s.off 24, 8)]
  | .mix4 | .mix3 | .mix2 => [(s.off, 8)]
  | .mix1 => [(s.off, partialLength s.res)]
  | .init | .squash | .dispatch | .final | .reset | .start => []

end Sys2Proof.Machine
end

