-- ==== Sys2Proof/Machine/Tail.lean ====
section
/-! DEFINITION. The tail-dispatch mixer: DISPATCH, MIX4, MIX3, MIX2, MIX1 (44_tail_dispatch R150, R154 to R157). -/

namespace Sys2Proof.Machine

/-- DISPATCH (R150): it writes the phase and nothing else. -/
def execDispatch (s : State) : Host.Outcome State Fault Refusal := .next (s.goto (firstTailPhase s.res))

/-- MIX4 (R154): target `a`, companion `b`, a full word, `PRIME[4]`. -/
def execMix4 (s : State) : Host.Outcome State Fault Refusal :=
  andThen (fetch64 s) fun f => .next ((mixup f.2 .a .b f.1 s.prime[4]).goto .mix3)

/-- MIX3 (R155): target `b`, companion `a`, a full word, `PRIME[3]`. -/
def execMix3 (s : State) : Host.Outcome State Fault Refusal :=
  andThen (fetch64 s) fun f => .next ((mixup f.2 .b .a f.1 s.prime[3]).goto .mix2)

/-- MIX2 (R156): target `a`, companion `b`, a full word, `PRIME[2]`. -/
def execMix2 (s : State) : Host.Outcome State Fault Refusal :=
  andThen (fetch64 s) fun f => .next ((mixup f.2 .a .b f.1 s.prime[2]).goto .mix1)

/-- MIX1 (R157): target `b`, companion `a`, the partial word, `PRIME[1]`. -/
def execMix1 (s : State) : Host.Outcome State Fault Refusal :=
  andThen (fetchTail s) fun f => .next ((mixup f.2 .b .a f.1 s.prime[1]).goto .final)

end Sys2Proof.Machine
end

