-- ==== Sys2Proof/Machine/Dispatch.lean ====
section
/-! DEFINITION. One arm per row of spec/opcode_table.json. -/

namespace Sys2Proof.Machine

def exec (i : Instr) (s : State) : Host.Outcome State Fault Refusal :=
  match i with
  | .init => Sys2Proof.Machine.execInit s
  | .block => Sys2Proof.Machine.execBlock s
  | .squash => Sys2Proof.Machine.execSquash s
  | .dispatch => Sys2Proof.Machine.execDispatch s
  | .mix4 => Sys2Proof.Machine.execMix4 s
  | .mix3 => Sys2Proof.Machine.execMix3 s
  | .mix2 => Sys2Proof.Machine.execMix2 s
  | .mix1 => Sys2Proof.Machine.execMix1 s
  | .final => Sys2Proof.Machine.execFinal s
  | .reset => Sys2Proof.Machine.execReset s
  | .start => Sys2Proof.Machine.execStart s

end Sys2Proof.Machine
end

