-- ==== Sys2Proof/Machine/Fetch.lean ====
section
/-! DEFINITION. Which instruction comes next: the engine's by the phase register, the host's by the sampled command vector
(30_encoding R80); the host's moves on the buffer; and the load that `withFetchWord` stands for. -/

namespace Sys2Proof.Machine

/-- What the next step is. -/
inductive Fetched where
  /-- An instruction runs from this state. -/
  | run (i : Instr) (s : State)
  /-- No instruction runs; this is the next state. -/
  | settle (s : State)
  /-- The spec gives the run no meaning. -/
  | stop (r : Refusal)
  deriving DecidableEq, Repr

/-- The engine's turn (10_state R28): the operation `PH` names; in IDLE and DONE no step (log entry 2); a reserved code is
refused (30_encoding R90). -/
def fetchEngine (s : State) : Fetched :=
  match decode (.phase s.ph) with
  | .instr i => .run i s
  | .quiescent => .settle s
  | .noCommand => .settle s
  | .reserved code => .stop (.reservedPhase code)

/-- `HC = {RESET, START}` of the pins (30_encoding R83). -/
def hostCommand (p : Ports) : BitVec 2 := BitVec.ofBool p.reset ++ BitVec.ofBool p.start

/-- A host step: the pins are driven and `HC` is sampled; `00` changes nothing more (30_encoding R83, R84). -/
def fetchHost (p : Ports) (s : State) : Fetched :=
  match decode (.host (hostCommand p)) with
  | .instr i => .run i (s.drive p)
  | .quiescent => .settle (s.drive p)
  | .noCommand => .settle (s.drive p)
  | .reserved code => .stop (.reservedPhase code)

/-- The host changes the buffer: refused where that changes a byte of the running invocation (20_memory R71,
70_reset_and_hazards R236; log entry 11). -/
def changeBuffer (s : State) (m : Memory) : Fetched :=
  if s.busy && !(Memory.agreeBelow s.buf m s.lenq.toNat) then .stop .bufferChangedWhileBusy else .settle (s.setBuf m)

/-- The host places a whole input (70_reset_and_hazards R233), of fewer than 2^64 bytes (20_memory R51; log entry 12). -/
def placeInput (data : List Byte) (s : State) : Fetched :=
  if data.length < 2 ^ 64 then changeBuffer s (Memory.ofBytes data) else .stop .inputTooLong

/-- The host writes bytes from an offset on (00_scope R12), none at an offset of 2^64 or more (log entry 12). -/
def writeInput (offset : Word) (data : List Byte) (s : State) : Fetched :=
  if offset.toNat + data.length ≤ 2 ^ 64 then changeBuffer s (Memory.writeBytes s.buf offset.toNat data)
  else .stop .inputTooLong

/-- The next step: the schedule's next move, and with an empty schedule the engine's (60_exceptions R204,
70_reset_and_hazards R246; log entries 1 and 2). -/
def fetch (s : State) : Fetched :=
  match s.schedule with
  | [] => fetchEngine s
  | .engine :: q => fetchEngine (s.setSchedule q)
  | .host p :: q => fetchHost p (s.setSchedule q)
  | .place data :: q => placeInput data (s.setSchedule q)
  | .write offset data :: q => writeInput offset data (s.setSchedule q)

/-- Can the buffer answer every request an instruction issues? -/
def inputServes (s : State) (i : Instr) : Bool :=
  (bufferRequests s i).all fun r =>
    decide (r.1.toNat + r.2 ≤ s.lenq.toNat) && (Memory.readBytes s.buf r.1.toNat r.2).isSome

/-- An invocation's input in place: 32 zero bytes at offset 0, all unread (log entry 20). -/
def loadInput (s : State) : State :=
  { s with off := 0, lenq := 32, buf := Memory.ofBytes (List.replicate 32 0) }

/-- An operation that reads the buffer is entered only with an input in place: where the state has none, load one (log
entry 20). -/
def ensureInput (s : State) (i : Instr) : State := if inputServes s i then s else loadInput s

/-- The state whose next step is the word of an encoding: the phase register and the engine's turn, or the strobes of a
host step (log entry 20). -/
def present (s : State) : Encoding → State
  | .phase code =>
    let t := { s with ph := code, schedule := .engine :: s.schedule }
    match (decode (.phase code)).instr? with
    | some i => ensureInput t i
    | none => t
  | .host command =>
    let pins : Ports := { s.ports with reset := command.getLsbD 1, start := command.getLsbD 0 }
    { s with schedule := .host pins :: s.schedule }

end Sys2Proof.Machine
end

