-- ==== Sys2Proof/Machine/Step.lean ====
section
/-! DEFINITION. One step of the machine, and where a word of the opcode table is put so that the next step runs it. -/

namespace Sys2Proof.Machine

/-- One step: one operation of the engine or one step of the host (00_scope R14, 60_exceptions R204). -/
def step (s : State) : Host.Outcome State Fault Refusal :=
  match fetch s with
  | .run i t => exec i t
  | .settle t => .next t
  | .stop r => .refused r

/-- The state `s` with a word of the opcode table as its next step (log entry 20). -/
def State.withFetchWord (s : State) (nbits w : Nat) : State :=
  match encodingOfTableWord nbits w with
  | some e => present s e
  | none => s

end Sys2Proof.Machine
end

