-- ==== Sys2Proof/Machine/WholeFunction.lean ====
section
/-! DEFINITION. The whole function `H(data, seed)` of 45_finalization R174, written over a list of bytes and apart from the
machine's registers, steps and buffer, so that a statement can hold the machine against it. The primes are an argument
(00_scope R7). -/

namespace Sys2Proof.Machine

/-- The four local words of R174. -/
structure HashWords where
  a : Word
  b : Word
  c : Word
  d : Word
  deriving DecidableEq, Repr

/-- `word(i)` with `n = 8`, `tailword(i, n)` otherwise (R174). -/
def hashInputWord (data : List Byte) (i n : Nat) : Word := leWord ((data.drop i).take n)

/-- The first two lines under `if n > 32` (R174). -/
def hashInit (n seed : Word) : HashWords :=
  { a := seed, b := n, c := add (rotr n 23) (bnot seed), d := add (bnot n) (rotr seed 19) }

/-- The body of the loop (R174); no new word is an argument of another (42_block_loop R131). -/
def hashBlock (prime : Vector Word 7) (data : List Byte) (off : Nat) (x : HashWords) : HashWords :=
  let w0 := hashInputWord data off 8
  let w1 := hashInputWord data (off + 8) 8
  let w2 := hashInputWord data (off + 16) 8
  let w3 := hashInputWord data (off + 24) 8
  let d02 := add w0 (rotr (add w2 x.d) 56)
  let c13 := add w1 (rotr (add w3 x.c) 19)
  { a := bxor x.a (mullo prime[5] (add d02 w3))
    b := bxor x.b (mullo prime[6] (add c13 w2))
    c := bxor x.c (add x.a (rotr w0 57))
    d := bxor x.d (add x.b (rotr w1 38)) }

/-- `repeat … until n - off < 32` (R174), with the number of rounds bounded by the first argument. -/
def hashBlocks (prime : Vector Word 7) (data : List Byte) : Nat → Nat → HashWords → HashWords × Nat
  | 0, off, x => (x, off)
  | fuel + 1, off, x =>
    let y := hashBlock prime data off x
    if data.length - (off + 32) < 32 then (y, off + 32) else hashBlocks prime data fuel (off + 32) y

/-- `mixup(t, o, v, p)` on a pair of words, the target first (R174, 44_tail_dispatch R151). -/
def hashMixup (t o v p : Word) : Word × Word :=
  (bxor t (mullo (add o v) p), add o (mulhi (add o v) p))

/-- The four `if res >= …` lines (R174): residual, offset, `a`, `b`. -/
def hashTail (prime : Vector Word 7) (data : List Byte) (res off : Nat) (a b : Word) : Word × Word :=
  let (a, b, off) :=
    if 25 ≤ res then
      let m := hashMixup a b (hashInputWord data off 8) prime[4]
      (m.1, m.2, off + 8)
    else (a, b, off)
  let (a, b, off) :=
    if 17 ≤ res then
      let m := hashMixup b a (hashInputWord data off 8) prime[3]
      (m.2, m.1, off + 8)
    else (a, b, off)
  let (a, b, off) :=
    if 9 ≤ res then
      let m := hashMixup a b (hashInputWord data off 8) prime[2]
      (m.1, m.2, off + 8)
    else (a, b, off)
  if 1 ≤ res then
    let k := if res % 8 ≠ 0 then res % 8 else 8
    let m := hashMixup b a (hashInputWord data off k) prime[1]
    (m.2, m.1)
  else (a, b)

/-- The last four lines (R174). -/
def hashFinal (prime : Vector Word 7) (a b : Word) : Word :=
  let x := mullo (add a (rotr b 41)) prime[0]
  let y := mullo (add (rotr a 23) b) prime[6]
  let z := bxor x y
  bxor (mullo z prime[5]) (mulhi z prime[5])

/-- `H(data, seed)` (R174), for an input of fewer than 2^64 bytes. -/
def digestOf (prime : Vector Word 7) (data : List Byte) (seed : Word) : Word :=
  let n := data.length
  if 32 < n then
    let l := hashBlocks prime data n 0 (hashInit (BitVec.ofNat 64 n) seed)
    let a := bxor l.1.a (mullo prime[6] (add l.1.c (rotr l.1.d 23)))
    let b := bxor l.1.b (mullo prime[5] (add (rotr l.1.c 19) l.1.d))
    let t := hashTail prime data (n % 32) l.2 a b
    hashFinal prime t.1 t.2
  else
    let t := hashTail prime data n 0 seed (BitVec.ofNat 64 n)
    hashFinal prime t.1 t.2

/-- `hash64(data, seed)`: the eight bytes of `H`, in the digest's byte order (R174, R172). -/
def digestBytesOf (prime : Vector Word 7) (data : List Byte) (seed : Word) : List Byte :=
  serialize Config.digestOrder (digestOf prime data seed)

/-- The residual length that enters tail dispatch (43_squash R141). -/
def residualLength (n : Nat) : Nat := if n ≤ 32 then n else n % 32

/-- The number of engine operations of an invocation (45_finalization R175). -/
def operationCount (n : Nat) : Nat :=
  let q := (residualLength n + 7) / 8
  if n ≤ 32 then 3 + q else 4 + n / 32 + q

end Sys2Proof.Machine
end

