-- ==== Sys2Proof/Safety.lean ====
section
/-! DEFINITION. The terms in which statements speak of runs: the invariant of the machine, an honest host, an invocation,
the edges of the phase register. -/

namespace Sys2Proof.Machine

/-! ### Whose turn it is -/

/-- The next step is the engine's (60_exceptions R204; with an empty schedule the engine is scheduled, log entry 1). -/
def State.EngineTurn (s : State) : Prop := s.schedule = [] ∨ s.schedule.head? = some .engine

/-- The state without the schedule's next move. -/
def State.popMove (s : State) : State := s.setSchedule s.schedule.tail

/-! ### The invariant -/

/-- `RES` is the residual length of the latched length (43_squash R141, 10_state R25). -/
def State.ResidualOk (s : State) : Prop := s.res.toNat = residualLength s.lenq.toNat

/-- Before the tail operation with `m` operations left: `8(m-1) < LENQ - OFF ≤ 8m` (44_tail_dispatch R159). -/
def State.TailOk (s : State) (m : Nat) : Prop :=
  s.ResidualOk ∧ s.off.toNat % 8 = 0 ∧ s.off.toNat ≤ s.lenq.toNat ∧
    8 * (m - 1) < s.lenq.toNat - s.off.toNat ∧ s.lenq.toNat - s.off.toNat ≤ 8 * m

/-- What holds of `OFF`, `RES` and `LENQ` in each phase (20_memory R60, R63; 42_block_loop R132, R133; 43_squash R141;
44_tail_dispatch R159). -/
def State.PhaseOk (s : State) : Phase → Prop
  | .idle | .init => True
  | .block => 32 < s.lenq.toNat ∧ s.off.toNat % 32 = 0 ∧ s.off.toNat + 32 ≤ s.lenq.toNat
  | .squash => 32 < s.lenq.toNat ∧ s.off.toNat = 32 * (s.lenq.toNat / 32)
  | .dispatch => s.ResidualOk ∧ s.off.toNat % 32 = 0 ∧ s.off.toNat + s.res.toNat = s.lenq.toNat
  | .mix4 => s.TailOk 4
  | .mix3 => s.TailOk 3
  | .mix2 => s.TailOk 2
  | .mix1 => s.TailOk 1
  | .final | .done => s.off = s.lenq

/-- The invariant: the buffer is in its canonical form, `PH` holds one of the eleven defined codes (30_encoding R90), and
what its phase promises holds. -/
def Inv (s : State) : Prop :=
  Memory.wf s.buf ∧ ∃ p, Phase.ofCode s.ph = some p ∧ s.PhaseOk p

/-! ### The host's duties -/

/-- An honest length: every offset below `LENQ` holds a byte the host has placed (20_memory R72, 70_reset_and_hazards
R237). -/
def State.Filled (s : State) : Prop := ∀ i < s.lenq.toNat, (Memory.byteAt s.buf i).isSome = true

/-- The buffer holds an input: byte `i` of it at offset `i`. Nothing is said of the offsets beyond it, so a `LEN` smaller
than the buffer is an invocation on a shorter input (20_memory R51, R72). -/
def Memory.holds (m : Memory) (data : List Byte) : Prop := ∀ i < data.length, Memory.byteAt m i = data[i]?

/-- An invocation of `hash64(data, seed)` just begun: START has been accepted with an honest length, and from here on only
the engine moves (00_scope R16, 30_encoding R94). -/
def State.Invokes (s : State) (data : List Byte) (seed : Word) : Prop :=
  data.length < 2 ^ 64 ∧ s.ph = Phase.init.code ∧ s.seedq = seed ∧ s.lenq = BitVec.ofNat 64 data.length ∧
    Memory.holds s.buf data ∧ s.schedule = []

/-! ### The phase register -/

/-- The transitions of 10_state R28 and 45_finalization R175, but for RESET's from anywhere to IDLE. -/
def phaseEdges : List (Phase × Phase) :=
  [(.idle, .init), (.done, .init), (.init, .block), (.init, .dispatch), (.block, .block), (.block, .squash),
   (.squash, .dispatch), (.dispatch, .mix4), (.dispatch, .mix3), (.dispatch, .mix2), (.dispatch, .mix1),
   (.dispatch, .final), (.mix4, .mix3), (.mix3, .mix2), (.mix2, .mix1), (.mix1, .final), (.final, .done)]

/-! ### Reads -/

/-- The requests tile the offsets from one to another, in ascending order, without gap or overlap (20_memory R63). -/
def Tiles : Nat → List (Word × Nat) → Nat → Prop
  | i, [], j => i = j
  | i, (addr, n) :: rs, j => addr.toNat = i ∧ Tiles (i + n) rs j

end Sys2Proof.Machine
end

