-- ==== Sys2Proof/Certificates/Slice0/Obligations.lean ====
section
/-! DEFINITION. The statements for the provers. A result statement gives the whole next state as an update of the old one,
so it is at once the instruction's completion and its frame: every register, every port and every byte of the buffer that
the update does not name is unchanged. -/

open Sys2Proof Sys2Proof.Machine

/-! ### Arithmetic primitives (40_arithmetic) -/

/-- 40_arithmetic R100: ADD is the sum modulo 2^64, with the rule's corner cases and laws. -/
def Obligations.AddWrapsModulo2To64 : Prop :=
  (∀ x y : Word, (add x y).toNat = (x.toNat + y.toNat) % 2 ^ 64) ∧
  (∀ x y z : Word, add x y = add y x ∧ add (add x y) z = add x (add y z)) ∧
  add 0xFFFFFFFFFFFFFFFF 1 = 0 ∧
  add 0x8000000000000000 0x8000000000000000 = 0 ∧
  add 0xFFFFFFFFFFFFFFFF 0xFFFFFFFFFFFFFFFF = 0xFFFFFFFFFFFFFFFE ∧ add 4 0xFFFFFFFFFFFFFFFE = 2

/-- 40_arithmetic R101: NOT inverts every bit, with the rule's corner cases. -/
def Obligations.NotInvertsEveryBit : Prop :=
  (∀ x : Word, ∀ i < 64, (bnot x).getLsbD i = !(x.getLsbD i)) ∧
  (∀ x : Word, (bnot x).toNat = 2 ^ 64 - 1 - x.toNat ∧ bnot x = bxor 0xFFFFFFFFFFFFFFFF x) ∧
  (∀ x : Word, add (bnot x) x = 0xFFFFFFFFFFFFFFFF ∧ add (add (bnot x) x) 1 = 0) ∧
  bnot 0 = 0xFFFFFFFFFFFFFFFF ∧ bnot 0xFFFFFFFFFFFFFFFF = 0 ∧ bnot 0x0123456789ABCDEF = 0xFEDCBA9876543210

/-- 40_arithmetic R102: bit i of XOR is the sum of the two bits modulo 2, with the rule's corner cases and laws. -/
def Obligations.XorAddsBitsModulo2 : Prop :=
  (∀ x y : Word, ∀ i < 64, ((bxor x y).getLsbD i).toNat = ((x.getLsbD i).toNat + (y.getLsbD i).toNat) % 2) ∧
  (∀ x : Word, bxor x 0 = x ∧ bxor x x = 0) ∧
  (∀ x y z : Word, bxor x y = bxor y x ∧ bxor (bxor x y) z = bxor x (bxor y z)) ∧
  bxor 0xDDC615C02402B0D9 0xE962007D1CF28866 = 0x34A415BD38F038BF

/-- 40_arithmetic R103: ROTR by each of the six amounts the engine uses, as a bit permutation and as shifts, with the
rule's corner cases; the definition is marked as general knowledge there. -/
def Obligations.RotateRightMovesBits : Prop :=
  ∀ n ∈ [19, 23, 38, 41, 56, 57],
    (∀ x : Word, ∀ i < 64, (rotr x n).getLsbD i = x.getLsbD ((i + n) % 64)) ∧
    (∀ x : Word, (rotr x n).toNat = (x.toNat / 2 ^ n ||| x.toNat * 2 ^ (64 - n)) % 2 ^ 64) ∧
    (∀ x : Word, rotr x n = x.rotateLeft (64 - n)) ∧
    rotr 0 n = 0 ∧ rotr 0xFFFFFFFFFFFFFFFF n = 0xFFFFFFFFFFFFFFFF ∧
    rotr 1 n = BitVec.ofNat 64 (2 ^ (64 - n)) ∧ rotr (BitVec.ofNat 64 (2 ^ 63)) n = BitVec.ofNat 64 (2 ^ (63 - n))

/-- 40_arithmetic R104: MULLO is the product modulo 2^64, the same for the signed reading, and multiplication by an
odd word is a bijection; with the rule's corner cases. -/
def Obligations.LowProductModulo2To64 : Prop :=
  (∀ x y : Word, (mullo x y).toNat = x.toNat * y.toNat % 2 ^ 64 ∧ mullo x y = BitVec.ofInt 64 (x.toInt * y.toInt)) ∧
  (∀ p : Word, p.toNat % 2 = 1 → Function.Bijective (fun x : Word => mullo x p)) ∧
  (∀ x : Word, mullo x 0 = 0 ∧ mullo x 1 = x) ∧
  mullo 0xFFFFFFFFFFFFFFFF 0xFFFFFFFFFFFFFFFF = 1 ∧ mullo 0x8000000000000000 2 = 0 ∧
  mullo 0x100000000 0x100000000 = 0 ∧ mullo 2 0xEC99BF0D8372CAAB = 0xD9337E1B06E59556

/-- 40_arithmetic R105: MULHI is the high half of the product of the operands read as unsigned, with the corner cases.
The rule's sentence on a signed multiply-high is not stated: it does not hold of an operand 0. -/
def Obligations.HighProductIsUnsigned : Prop :=
  (∀ x y : Word, (mulhi x y).toNat = x.toNat * y.toNat / 2 ^ 64 ∧ (mulhi x y).toNat ≤ 2 ^ 64 - 2) ∧
  (∀ x : Word, mulhi x 0 = 0 ∧ mulhi x 1 = 0) ∧
  (∀ y : Word, 1 ≤ y.toNat → mulhi 0xFFFFFFFFFFFFFFFF y = y - 1) ∧
  mulhi 0x8000000000000000 2 = 1 ∧ mulhi 0x100000000 0x100000000 = 1 ∧
  mulhi 2 0xEC99BF0D8372CAAB = 1 ∧ mulhi 0x0123456789ABCDEF 0xFEDCBA9876543210 = 0x0121FA00AD77D742

/-- 40_arithmetic R106, an inference the spec marks as its own: the two halves make the exact product. -/
def Obligations.ProductHalvesMakeTheProduct : Prop :=
  ∀ x y : Word, x.toNat * y.toNat = (mulhi x y).toNat * 2 ^ 64 + (mullo x y).toNat

/-- 40_arithmetic R107, marked as general knowledge there: the four partial products give the same two halves, and no
sum of the rule wraps. -/
def Obligations.FourPartialProductsAgree : Prop :=
  ∀ x y : Word,
    mulloByHalves x y = mullo x y ∧ mulhiByHalves x y = mulhi x y ∧ mulMiddle x y < 3 * 2 ^ 32 ∧
    x.toNat / 2 ^ 32 * (y.toNat / 2 ^ 32) + x.toNat % 2 ^ 32 * (y.toNat / 2 ^ 32) / 2 ^ 32 +
      x.toNat / 2 ^ 32 * (y.toNat % 2 ^ 32) / 2 ^ 32 + mulMiddle x y / 2 ^ 32 < 2 ^ 64

/-- 40_arithmetic R110, an inference the spec marks as its own: the loop test on words says that at least 32 bytes
remain, whenever `OFF <= LENQ`. -/
def Obligations.LoopTestDoesNotWrap : Prop :=
  ∀ lenq off : Word, off.toNat ≤ lenq.toNat → (moreBlocks lenq off = true ↔ off.toNat + 32 ≤ lenq.toNat)

/-- 40_arithmetic R112(3), an inference the spec marks as its own: each accumulator update of BLOCK and the target's
update of a mixup step is a bijection of the accumulator it writes, the other inputs fixed. -/
def Obligations.AccumulatorUpdatesAreBijections : Prop :=
  (∀ (s : State) (w0 w1 w2 w3 : Word) (r : Acc),
    Function.Bijective (fun v : Word => (butterfly (s.setAcc r v) w0 w1 w2 w3).acc r)) ∧
  (∀ (s : State) (t o : Acc) (v p : Word), t ≠ o →
    Function.Bijective (fun x : Word => (mixup (s.setAcc t x) t o v p).acc t))

/-! ### Encodings (30_encoding) -/

/-- 30_encoding R97: decoding an encoded instruction gives it back, and a word that decodes to an instruction is its
encoding but for RESET's don't-care bit. -/
def Obligations.DecodeEncodeAgree : Prop :=
  (∀ i : Instr, i.wellFormed = true → decode (encode i) = .instr i) ∧
  (∀ (e : Encoding) (i : Instr), decode e = .instr i → e = encode i ∨ (i = .reset ∧ e = .host 0b11))

/-- 30_encoding R82: the phase codes, each written out. -/
def Obligations.PhaseCodesDecode : Prop :=
  decode (.phase 0b0000) = .quiescent ∧ decode (.phase 0b0001) = .instr .init ∧
  decode (.phase 0b0010) = .instr .block ∧ decode (.phase 0b0011) = .instr .squash ∧
  decode (.phase 0b0100) = .instr .dispatch ∧ decode (.phase 0b0101) = .instr .mix4 ∧
  decode (.phase 0b0110) = .instr .mix3 ∧ decode (.phase 0b0111) = .instr .mix2 ∧
  decode (.phase 0b1000) = .instr .mix1 ∧ decode (.phase 0b1001) = .instr .final ∧
  decode (.phase 0b1010) = .quiescent ∧
  (∀ code : BitVec 4, 11 ≤ code.toNat → decode (.phase code) = .reserved code)

/-- 30_encoding R84: RESET whatever START is, START alone, and no command; a host step with no command changes nothing
but the pins it drove, which the model holds (log entries 1 and 22). -/
def Obligations.HostCommandsDecode : Prop :=
  (∀ p : Ports, p.reset = true → decode (.host (hostCommand p)) = .instr .reset) ∧
  (∀ p : Ports, p.reset = false → p.start = true → decode (.host (hostCommand p)) = .instr .start) ∧
  (∀ p : Ports, p.reset = false → p.start = false → decode (.host (hostCommand p)) = .noCommand) ∧
  (∀ (s : State) (p : Ports) (q : List Move), s.schedule = .host p :: q → p.reset = false → p.start = false →
    step s = .next { s with schedule := q, ports := p })

/-- 30_encoding R90: the codes 11 to 15 decode as reserved and no other does; on the engine's turn the machine refuses
a state that holds one (log entry 13); no instruction writes one, an inference the spec marks as its own. -/
def Obligations.ReservedPhaseCodesRefused : Prop :=
  (∀ code : BitVec 4, decode (.phase code) = .reserved code ↔ 11 ≤ code.toNat) ∧
  (∀ s : State, s.EngineTurn → 11 ≤ s.ph.toNat → step s = .refused (.reservedPhase s.ph)) ∧
  (∀ (i : Instr) (s t : State), exec i s = .next t → t.ph = s.ph ∨ t.ph.toNat ≤ 10)

/-- 30_encoding R97: the words of the opcode table's eleven rows, by the width of their format. The width that tells
the two formats apart is the model's choice (log entry 21). -/
def Obligations.TableWordsDecode : Prop :=
  (∀ w : Nat, decodeTableWord 4 w =
    [none, some .init, some .block, some .squash, some .dispatch, some .mix4, some .mix3, some .mix2, some .mix1,
      some .final].getD w none) ∧
  (∀ w : Nat, decodeTableWord 2 w = [none, some .start, some .reset, some .reset].getD w none)

/-! ### The step -/

/-- 10_state R28, 00_scope R14: on the engine's turn a step is the operation `PH` names. What the step adds: the
schedule's engine move is used up (log entry 1). -/
def Obligations.StepRunsTheOperationOfThePhase : Prop :=
  ∀ (s : State) (i : Instr), s.EngineTurn → decode (.phase s.ph) = .instr i → step s = exec i s.popMove

/-- 30_encoding R83: on the host's turn a step drives the pins and runs the command of the sampled vector `HC`. The
schedule and the held pins are the model's (log entries 1 and 22). -/
def Obligations.StepRunsTheHostCommand : Prop :=
  ∀ (s : State) (p : Ports) (q : List Move) (i : Instr), s.schedule = .host p :: q →
    decode (.host (hostCommand p)) = .instr i → step s = exec i { s with schedule := q, ports := p }

/-- 10_state R28: in IDLE and DONE the engine has no step; its turn changes nothing (log entry 2, the model's choice).
-/
def Obligations.EngineHasNoStepInIdleAndDone : Prop :=
  ∀ s : State, s.EngineTurn → (s.ph = 0b0000 ∨ s.ph = 0b1010) → step s = .next s.popMove

/-- The model's load of a table word (log entry 20): the next step runs exactly that instruction and it completes;
only the program counter or the strobes change, and, where the operation's input is not in place, the input. -/
def Obligations.WithFetchWordRunsTheWord : Prop :=
  ∀ (s : State) (nbits w : Nat) (i : Instr), decodeTableWord nbits w = some i →
    ∃ t u : State, step (s.withFetchWord nbits w) = exec i t ∧ exec i t = .next u ∧ t.schedule = s.schedule ∧
      t.a = s.a ∧ t.b = s.b ∧ t.c = s.c ∧ t.d = s.d ∧ t.res = s.res ∧ t.seedq = s.seedq ∧ t.digest = s.digest ∧
      t.prime = s.prime ∧ t.draws = s.draws ∧ t.ports.seed = s.ports.seed ∧ t.ports.len = s.ports.len ∧
      (inputServes s i = true → t.off = s.off ∧ t.lenq = s.lenq ∧ t.buf = s.buf)

/-! ### The instructions -/

/-- 41_init R121: INIT, both paths, the whole next state. On the short path `RES` is the whole length. That a register
INIT does not write keeps its value, `c` and `d` on the short path and `RES` on the long one, is the model's (log entry
17): the spec calls the value unspecified. -/
def Obligations.InitResult : Prop :=
  decode (.phase 0b0001) = .instr .init ∧
  (∀ s : State, exec .init s =
    .next (if 32 < s.lenq.toNat then
        { s with
          a := s.seedq, b := s.lenq, off := 0
          c := rotr s.lenq 23 + ~~~s.seedq, d := ~~~s.lenq + rotr s.seedq 19, ph := 0b0010 }
      else { s with a := s.seedq, b := s.lenq, off := 0, res := s.lenq.extractLsb' 0 6, ph := 0b0100 })) ∧
  (∀ n : Word, n.toNat ≤ 32 → (n.extractLsb' 0 6).toNat = n.toNat)

/-- 42_block_loop R130, R131: BLOCK, the whole next state from the old one, for every block that lies inside the
input. -/
def Obligations.BlockResult : Prop :=
  decode (.phase 0b0010) = .instr .block ∧
  ∀ (s : State) (vs : List Byte), s.off.toNat + 32 ≤ s.lenq.toNat →
    Memory.readBytes s.buf s.off.toNat 32 = some vs →
    let w0 := leWord (vs.take 8)
    let w1 := leWord ((vs.drop 8).take 8)
    let w2 := leWord ((vs.drop 16).take 8)
    let w3 := leWord ((vs.drop 24).take 8)
    let d02 := w0 + rotr (w2 + s.d) 56
    let c13 := w1 + rotr (w3 + s.c) 19
    exec .block s = .next
      { s with
        d := s.d ^^^ (s.b + rotr w1 38)
        c := s.c ^^^ (s.a + rotr w0 57)
        b := s.b ^^^ (s.prime[6] * (c13 + w2))
        a := s.a ^^^ (s.prime[5] * (d02 + w3))
        off := s.off + 32
        ph := if 32 ≤ (s.lenq - (s.off + 32)).toNat then 0b0010 else 0b0011 }

/-- 43_squash R140: SQUASH, the whole next state; `RES` is `LENQ mod 32`. -/
def Obligations.SquashResult : Prop :=
  decode (.phase 0b0011) = .instr .squash ∧
  ∀ s : State,
    exec .squash s = .next
      { s with
        a := s.a ^^^ (s.prime[6] * (s.c + rotr s.d 23))
        b := s.b ^^^ (s.prime[5] * (rotr s.c 19 + s.d))
        res := BitVec.ofNat 6 (s.lenq.toNat % 32)
        ph := 0b0100 } ∧
    (BitVec.ofNat 6 (s.lenq.toNat % 32)).toNat = s.lenq.toNat % 32

/-- 44_tail_dispatch R150: DISPATCH writes `PH` by the band of `RES` and nothing else. -/
def Obligations.DispatchByBand : Prop :=
  decode (.phase 0b0100) = .instr .dispatch ∧
  ∀ s : State, s.res.toNat ≤ 32 →
    exec .dispatch s = .next
      { s with
        ph := if 25 ≤ s.res.toNat then 0b0101
          else if 17 ≤ s.res.toNat then 0b0110
          else if 9 ≤ s.res.toNat then 0b0111
          else if 1 ≤ s.res.toNat then 0b1000
          else 0b1001 }

/-- 30_encoding R88: the first tail phase by the number of tail operations `(RES + 7) div 8`; above 32, which R88
calls unreachable, the model's reading sends DISPATCH to MIX4 (log entry 14). -/
def Obligations.DispatchByTailOperations : Prop :=
  ∀ s : State,
    (s.res.toNat ≤ 32 →
      exec .dispatch s = .next
        { s with ph := [(0b1001 : BitVec 4), 0b1000, 0b0111, 0b0110, 0b0101].getD ((s.res.toNat + 7) / 8) 0 }) ∧
    (32 < s.res.toNat → exec .dispatch s = .next { s with ph := 0b0101 })

/-- 44_tail_dispatch R151: the mixup step of two different accumulators, both halves from one product of the old sum;
the other accumulators and all else are unchanged. -/
def Obligations.MixupFoldsTheProduct : Prop :=
  ∀ (s : State) (t o : Acc) (v p : Word), t ≠ o →
    let sum := s.acc o + v
    mixup s t o v p =
      (s.setAcc t (s.acc t ^^^ BitVec.ofNat 64 (sum.toNat * p.toNat))).setAcc o
        (s.acc o + BitVec.ofNat 64 (sum.toNat * p.toNat / 2 ^ 64))

/-- 44_tail_dispatch R160, row 2, an inference the spec marks as its own: where `o + v` is 0 modulo 2^64 the step
changes nothing. -/
def Obligations.MixupAbsorbsAWord : Prop :=
  ∀ (s : State) (t o : Acc) (v p : Word), t ≠ o → s.acc o + v = 0 → mixup s t o v p = s

/-- 44_tail_dispatch R154: MIX4, the whole next state, for every full word inside the input. -/
def Obligations.Mix4Result : Prop :=
  decode (.phase 0b0101) = .instr .mix4 ∧
  ∀ (s : State) (vs : List Byte), s.off.toNat + 8 ≤ s.lenq.toNat →
    Memory.readBytes s.buf s.off.toNat 8 = some vs →
    let sum := s.b + leWord vs
    exec .mix4 s = .next
      { s with
        a := s.a ^^^ (sum * s.prime[4]), b := s.b + mulhi sum s.prime[4]
        off := s.off + 8, ph := 0b0110 }

/-- 44_tail_dispatch R155: MIX3, the whole next state, for every full word inside the input. -/
def Obligations.Mix3Result : Prop :=
  decode (.phase 0b0110) = .instr .mix3 ∧
  ∀ (s : State) (vs : List Byte), s.off.toNat + 8 ≤ s.lenq.toNat →
    Memory.readBytes s.buf s.off.toNat 8 = some vs →
    let sum := s.a + leWord vs
    exec .mix3 s = .next
      { s with
        b := s.b ^^^ (sum * s.prime[3]), a := s.a + mulhi sum s.prime[3]
        off := s.off + 8, ph := 0b0111 }

/-- 44_tail_dispatch R156: MIX2, the whole next state, for every full word inside the input. -/
def Obligations.Mix2Result : Prop :=
  decode (.phase 0b0111) = .instr .mix2 ∧
  ∀ (s : State) (vs : List Byte), s.off.toNat + 8 ≤ s.lenq.toNat →
    Memory.readBytes s.buf s.off.toNat 8 = some vs →
    let sum := s.b + leWord vs
    exec .mix2 s = .next
      { s with
        a := s.a ^^^ (sum * s.prime[2]), b := s.b + mulhi sum s.prime[2]
        off := s.off + 8, ph := 0b1000 }

/-- 44_tail_dispatch R157, 30_encoding R89: MIX1, the whole next state, for every partial word inside the input; `k`
is `RES mod 8`, or 8 when that is 0. At `RES = 0` and above 32, which no run reaches, the same formula is the model's reading
(log entry 15). -/
def Obligations.Mix1Result : Prop :=
  decode (.phase 0b1000) = .instr .mix1 ∧
  ∀ (s : State) (k : Nat) (vs : List Byte), k = (if s.res.toNat % 8 = 0 then 8 else s.res.toNat % 8) →
    s.off.toNat + k ≤ s.lenq.toNat → Memory.readBytes s.buf s.off.toNat k = some vs →
    let sum := s.a + leWord vs
    exec .mix1 s = .next
      { s with
        b := s.b ^^^ (sum * s.prime[1]), a := s.a + mulhi sum s.prime[1]
        off := s.off + BitVec.ofNat 64 k, ph := 0b1001 }

/-- 45_finalization R170: FINAL, the whole next state; `DIGEST` and `PH` change together. -/
def Obligations.FinalResult : Prop :=
  decode (.phase 0b1001) = .instr .final ∧
  ∀ s : State,
    let x := (s.a + rotr s.b 41) * s.prime[0]
    let y := (rotr s.a 23 + s.b) * s.prime[6]
    let z := x ^^^ y
    exec .final s = .next { s with digest := z * s.prime[5] ^^^ mulhi z s.prime[5], ph := 0b1010 }

/-- 70_reset_and_hazards R230: RESET in every phase leads to IDLE with the primes unchanged. Of the data registers, which
become unspecified, nothing is said. R230 speaks of neither the buffer, which is the host's (20_memory R51), nor the pins
and the schedule: that the pins hold and that the schedule stands as it was is the model's (log entries 22 and 1). -/
def Obligations.ResetCommandResult : Prop :=
  decode (.host 0b10) = .instr .reset ∧ decode (.host 0b11) = .instr .reset ∧
  ∀ s : State, ∃ t : State, exec .reset s = .next t ∧ t.ph = 0b0000 ∧ t.busy = false ∧ t.done = false ∧
    t.prime = s.prime ∧ t.buf = s.buf ∧ t.ports = s.ports ∧ t.schedule = s.schedule

/-- 41_init R120: START in IDLE or DONE latches the operand ports and goes to INIT, `DIGEST` becoming unspecified (a
free value, of which nothing is said); in every other phase it changes nothing. -/
def Obligations.StartResult : Prop :=
  decode (.host 0b01) = .instr .start ∧
  ∀ s : State,
    ((s.ph = 0b0000 ∨ s.ph = 0b1010) →
      ∃ (v : Word) (n : Nat), exec .start s = .next
        { s with seedq := s.ports.seed, lenq := s.ports.len, ph := 0b0001, digest := v, draws := n } ∧
        ({ s with seedq := s.ports.seed, lenq := s.ports.len, ph := 0b0001, digest := v, draws := n } : State).busy = true) ∧
    (¬(s.ph = 0b0000 ∨ s.ph = 0b1010) → exec .start s = .next s)

/-- 70_reset_and_hazards R239: a START sampled while `BUSY = 1` changes no state. As a host step only the pins it drove
differ and the step is used up; the held pins and the schedule are the model's (log entries 22 and 1). -/
def Obligations.StartIgnoredWhileBusy : Prop :=
  (∀ s : State, s.busy = true → exec .start s = .next s) ∧
  ∀ (s : State) (p : Ports) (q : List Move), s.schedule = .host p :: q → p.reset = false → p.start = true →
    s.busy = true → step s = .next { s with schedule := q, ports := p }

/-- 70_reset_and_hazards R240: `SEED` and `LEN` are sampled by an accepted START only: every other instruction, and a
START while busy, commutes with driving the pins. -/
def Obligations.PinsReadOnlyByStart : Prop :=
  ∀ (i : Instr) (s : State) (p : Ports), (i ≠ .start ∨ s.busy = true) →
    exec i (s.drive p) = andThen (exec i s) (fun t => .next (t.drive p))

/-- 60_exceptions R200, 20_memory R60: every instruction completes exactly when the buffer answers each request it
issues; otherwise it stops by one of the two names for a read the spec does not answer (log entries 9 and 10). -/
def Obligations.ExecCompletesExactlyWhenServed : Prop :=
  ∀ (i : Instr) (s : State),
    ((∃ t, exec i s = .next t) ↔
      ∀ r ∈ bufferRequests s i, r.1.toNat + r.2 ≤ s.lenq.toNat ∧
        ∀ j < r.2, (Memory.byteAt s.buf (r.1.toNat + j)).isSome = true) ∧
    ((∀ t, exec i s ≠ .next t) → exec i s = .fault .outOfBounds ∨ exec i s = .refused .unfilledByte)

/-- 20_memory R52, 10_state R20, R26, R27: what no instruction writes, and each register by its writers. Every byte of
the buffer reads as before. The pins and the schedule are the model's (log entries 22 and 1), and so is the `DIGEST` kept
from START to FINAL (log entry 5) and that an unwritten register keeps its value where the spec calls it unspecified (log
entry 17). -/
def Obligations.EngineOperationFrame : Prop :=
  ∀ (i : Instr) (s t : State), exec i s = .next t →
    (∀ j, Memory.byteAt t.buf j = Memory.byteAt s.buf j) ∧ t.buf = s.buf ∧ t.prime = s.prime ∧ t.ports = s.ports ∧
    t.schedule = s.schedule ∧
    (i ≠ .start → i ≠ .reset → t.lenq = s.lenq ∧ t.seedq = s.seedq ∧ t.draws = s.draws ∧
      (i ≠ .final → t.digest = s.digest) ∧
      (i ≠ .init → i ≠ .block → t.c = s.c ∧ t.d = s.d) ∧
      (i ≠ .init → i ≠ .squash → t.res = s.res) ∧
      (i = .dispatch ∨ i = .final → t.a = s.a ∧ t.b = s.b) ∧
      (i = .squash ∨ i = .dispatch ∨ i = .final → t.off = s.off))

/-- 10_state R27: the prime table is never mutated, by no step of engine or host. -/
def Obligations.PrimesNeverMutated : Prop :=
  ∀ s t : State, step s = .next t → t.prime = s.prime

/-! ### Memory and the byte orders (20_memory) -/

/-- 20_memory R55: a full word is the little-endian sum of its eight bytes. -/
def Obligations.FullWordIsLittleEndian : Prop :=
  ∀ (s : State) (addr : Word) (b0 b1 b2 b3 b4 b5 b6 b7 : Byte), addr.toNat + 8 ≤ s.lenq.toNat →
    (∀ j < 8, Memory.byteAt s.buf (addr.toNat + j) = [b0, b1, b2, b3, b4, b5, b6, b7][j]?) →
    ∃ w : Word, memRead s addr 8 = .next w ∧
      w.toNat = b0.toNat + b1.toNat * 2 ^ 8 + b2.toNat * 2 ^ 16 + b3.toNat * 2 ^ 24 + b4.toNat * 2 ^ 32 +
        b5.toNat * 2 ^ 40 + b6.toNat * 2 ^ 48 + b7.toNat * 2 ^ 56 ∧
      w.extractLsb' 0 8 = b0

/-- 20_memory R56: a partial word of `k` bytes is their little-endian sum, zero-extended. -/
def Obligations.PartialWordZeroExtends : Prop :=
  ∀ (s : State) (addr : Word) (vs : List Byte), 1 ≤ vs.length → vs.length ≤ 8 →
    addr.toNat + vs.length ≤ s.lenq.toNat →
    (∀ j < vs.length, Memory.byteAt s.buf (addr.toNat + j) = vs[j]?) →
    ∃ w : Word, memRead s addr vs.length = .next w ∧
      w.toNat = ((List.range vs.length).map (fun j => (vs.getD j 0).toNat * 2 ^ (8 * j))).sum ∧
      w.toNat < 2 ^ (8 * vs.length) ∧ ∀ j, 8 * vs.length ≤ j → w.getLsbD j = false

/-- 20_memory R57, 45_finalization R172: the digest's bytes, byte 0 the most significant, and the word they make read
as a big-endian number (the order is fixed by the spec's decision D9; log entry 8). -/
def Obligations.DigestBytesAreBigEndian : Prop :=
  ∀ s : State, s.done = true →
    s.digestBytesOut = some
      [s.digest.extractLsb' 56 8, s.digest.extractLsb' 48 8, s.digest.extractLsb' 40 8, s.digest.extractLsb' 32 8,
       s.digest.extractLsb' 24 8, s.digest.extractLsb' 16 8, s.digest.extractLsb' 8 8, s.digest.extractLsb' 0 8] ∧
    ∀ vs, s.digestBytesOut = some vs → vs.foldl (fun n v => n * 2 ^ 8 + v.toNat) 0 = s.digest.toNat

/-- 00_scope R12: `MemWrite` then a read of the same bytes gives the low bytes of the value, little-endian, and every
other byte reads as before. -/
def Obligations.MemWriteReadsBack : Prop :=
  ∀ (m : Memory) (addr n : Nat) (v : Word), n ≤ 8 →
    Memory.readBytes (Memory.memWrite m addr n v) addr n = some (leBytes n v) ∧
    (leWord (leBytes n v)).toNat = v.toNat % 2 ^ (8 * n) ∧
    ∀ j, (j < addr ∨ addr + n ≤ j) → Memory.byteAt (Memory.memWrite m addr n v) j = Memory.byteAt m j

/-- 70_reset_and_hazards R233(1), R236, 20_memory R51: the host places a whole input, byte i at offset i, while not busy,
and while busy where no byte below `LENQ` changes (log entry 11; the changing one is BufferChangeWhileBusyRefused's); an
input of 2^64 bytes or more is refused (log entry 12). -/
def Obligations.HostPlacesTheInput : Prop :=
  ∀ (s : State) (data : List Byte) (q : List Move), Memory.wf s.buf → s.schedule = .place data :: q →
    (data.length < 2 ^ 64 → (s.busy = false ∨ ∀ j < s.lenq.toNat, Memory.byteAt s.buf j = data[j]?) →
      ∃ m : Memory, step s = .next { s with schedule := q, buf := m } ∧ Memory.wf m ∧
        ∀ j, Memory.byteAt m j = data[j]?) ∧
    (2 ^ 64 ≤ data.length → step s = .refused .inputTooLong)

/-- 20_memory R71, 70_reset_and_hazards R236: while busy each of the host's two moves on the buffer is refused where it
changes a byte below `LENQ`; a write that changes none, or while not busy, goes on (log entry 11); a write that reaches an
offset of 2^64 or more is refused (log entry 12). -/
def Obligations.BufferChangeWhileBusyRefused : Prop :=
  ∀ (s : State) (q : List Move), Memory.wf s.buf →
    (∀ data : List Byte, s.schedule = .place data :: q → data.length < 2 ^ 64 → s.busy = true →
      (∃ j < s.lenq.toNat, Memory.byteAt s.buf j ≠ data[j]?) → step s = .refused .bufferChangedWhileBusy) ∧
    ∀ (addr : Word) (data : List Byte), s.schedule = .write addr data :: q →
      (2 ^ 64 < addr.toNat + data.length → step s = .refused .inputTooLong) ∧
      (addr.toNat + data.length ≤ 2 ^ 64 →
        ((s.busy = true ∧ ∃ j < data.length, addr.toNat + j < s.lenq.toNat ∧
            Memory.byteAt s.buf (addr.toNat + j) ≠ data[j]?) → step s = .refused .bufferChangedWhileBusy) ∧
        ((s.busy = false ∨ ∀ j < data.length, addr.toNat + j < s.lenq.toNat →
            Memory.byteAt s.buf (addr.toNat + j) = data[j]?) →
          ∃ m : Memory, step s = .next { s with schedule := q, buf := m } ∧ Memory.wf m ∧
            (∀ j < data.length, Memory.byteAt m (addr.toNat + j) = data[j]?) ∧
            ∀ j, (j < addr.toNat ∨ addr.toNat + data.length ≤ j) → Memory.byteAt m j = Memory.byteAt s.buf j))

/-! ### Status outputs and the result (10_state, 45_finalization) -/

/-- 10_state R30: the status outputs are functions of `PH`; after reset both are 0. -/
def Obligations.StatusOutputsFollowThePhase : Prop :=
  (∀ s : State, (s.done = true ↔ s.ph = 0b1010) ∧ (s.busy = true ↔ s.ph ≠ 0b0000 ∧ s.ph ≠ 0b1010)) ∧
  State.reset.done = false ∧ State.reset.busy = false ∧
  ∀ s t : State, exec .reset s = .next t → t.done = false ∧ t.busy = false

/-- 70_reset_and_hazards R238: the output `DIGEST` answers exactly while `DONE = 1` (the model refuses it otherwise,
log entry 6), and then with the register. -/
def Obligations.DigestReadOnlyWhileDone : Prop :=
  ∀ s : State, (s.ph = 0b1010 → s.digestOut = some s.digest) ∧
    (s.ph ≠ 0b1010 → s.digestOut = none ∧ s.digestBytesOut = none)

/-- 45_finalization R173: in DONE the digest and the status hold until the host's START or RESET. -/
def Obligations.DoneHoldsTheDigest : Prop :=
  ∀ s t : State, s.ph = 0b1010 → step s = .next t →
    (t.ph = 0b1010 ∧ t.digest = s.digest ∧ t.digestBytesOut = s.digestBytesOut) ∨
    ∃ p q, s.schedule = .host p :: q ∧
      ((p.reset = true ∧ t.ph = 0b0000) ∨ (p.reset = false ∧ p.start = true ∧ t.ph = 0b0001))

/-! ### The machine as a whole -/

/-- 10_state R36, R27: after reset `PH` is IDLE, both status outputs are 0 and the primes hold their constants, written
out here; the spec marks the seven values as from general knowledge (log entry 7). -/
def Obligations.ResetState : Prop :=
  State.reset.ph = 0b0000 ∧ State.reset.busy = false ∧ State.reset.done = false ∧
  State.reset.prime[0] = 0xEC99BF0D8372CAAB ∧ State.reset.prime[1] = 0x82434FE90EDCEF39 ∧
  State.reset.prime[2] = 0xD4F06DB99D67BE4B ∧ State.reset.prime[3] = 0xBD9CACC22C6E9571 ∧
  State.reset.prime[4] = 0x9C06FAF4D023E3AB ∧ State.reset.prime[5] = 0xC060724A8424F345 ∧
  State.reset.prime[6] = 0xCB5AF53AE3AAAC31 ∧
  ∀ s t : State, exec .reset s = .next t → t.ph = 0b0000 ∧ t.prime = s.prime

/-- The invariant holds at reset: the phase is 10_state R36's; the empty buffer is the model's (log entry 9). -/
def Obligations.InvariantAtReset : Prop := Inv State.reset

/-- 20_memory R60, R63; 42_block_loop R132, R133; 43_squash R141; 44_tail_dispatch R159; 30_encoding R90, inferences
the spec marks as its own: every step of engine or host keeps the invariant. -/
def Obligations.StepKeepsTheInvariant : Prop :=
  ∀ s t : State, Inv s → step s = .next t → Inv t

/-- 20_memory R60, an inference the spec marks as its own: every request the engine issues lies inside `[0, LENQ)`, is
of 1 to 8 bytes, and does not wrap. -/
def Obligations.ReadsStayInsideTheInput : Prop :=
  ∀ (s : State) (i : Instr), Inv s → decode (.phase s.ph) = .instr i →
    ∀ r ∈ bufferRequests s i, r.1.toNat + r.2 ≤ s.lenq.toNat ∧ requestWellFormed r.2 = true

/-- 20_memory R63, an inference the spec marks as its own: the reads of an invocation tile `[0, LENQ)`: INIT sets
`OFF` to 0, each operation reads exactly the bytes from its `OFF` to the next one in ascending order, `OFF = LENQ -
RES` at DISPATCH, and `OFF = LENQ` at DONE. -/
def Obligations.ReadsTileTheInput : Prop :=
  (∀ s t : State, exec .init s = .next t → t.off = 0 ∧ bufferRequests s .init = []) ∧
  (∀ (i : Instr) (s t : State), i ≠ .init → i ≠ .reset → i ≠ .start → exec i s = .next t →
    Tiles s.off.toNat (bufferRequests s i) t.off.toNat) ∧
  (∀ s : State, Inv s → s.ph = 0b0100 → s.off.toNat + s.res.toNat = s.lenq.toNat) ∧
  (∀ s : State, Inv s → s.ph = 0b1010 → s.off = s.lenq)

/-- 60_exceptions R215, an inference the spec marks as its own: while `BUSY = 1`, with an honest length, the engine is
never stuck: its turn gives a next state, in which the length is still honest. -/
def Obligations.BusyEngineAlwaysSteps : Prop :=
  ∀ s : State, Inv s → s.busy = true → s.Filled → s.EngineTurn → ∃ t, step s = .next t ∧ t.Filled

/-- 10_state R28: the transitions of the phase register, and no others. An operation takes one of the table's edges;
the engine's turn in IDLE or DONE takes none; a host step takes START's edges, or RESET's to IDLE, or none. The
engine's turn at rest and the schedule are the model's (log entries 1 and 2). -/
def Obligations.PhaseFollowsItsEdges : Prop :=
  ∀ (s t : State) (p : Phase), Phase.ofCode s.ph = some p → step s = .next t →
    ∃ q : Phase, t.ph = q.code ∧
      (s.EngineTurn → (p = .idle ∨ p = .done → q = p) ∧ (p ≠ .idle → p ≠ .done → (p, q) ∈ phaseEdges)) ∧
      (¬s.EngineTurn → q = p ∨ q = .idle ∨ (q = .init ∧ (p = .idle ∨ p = .done)))

/-- 42_block_loop R133, an inference the spec marks as its own: from the entry of the loop with `OFF = 0` the engine
executes exactly `LENQ div 32` BLOCK operations and leaves `OFF = 32 * (LENQ div 32)`. -/
def Obligations.LoopRunsLengthDiv32Blocks : Prop :=
  ∀ s : State, s.ph = 0b0010 → s.off = 0 → 32 < s.lenq.toNat → s.Filled → s.schedule = [] →
    (∀ k < s.lenq.toNat / 32, ∃ t : State, Host.Core.run core k s = .next t ∧ t.ph = 0b0010 ∧ t.off.toNat = 32 * k) ∧
    ∃ t : State, Host.Core.run core (s.lenq.toNat / 32) s = .next t ∧ t.ph = 0b0011 ∧
      t.off.toNat = 32 * (s.lenq.toNat / 32) ∧ t.lenq.toNat - t.off.toNat = s.lenq.toNat % 32

/-- 41_init R120, 30_encoding R94: an accepted START on a buffer that holds `data` begins the invocation of
`hash64(data, seed)` (the schedule is the model's, log entry 1). -/
def Obligations.StartBeginsTheInvocation : Prop :=
  ∀ (s : State) (p : Ports) (data : List Byte), data.length < 2 ^ 64 → s.busy = false →
    s.schedule = [.host p] → p.reset = false → p.start = true → p.len = BitVec.ofNat 64 data.length →
    Memory.holds s.buf data →
    ∃ t : State, step s = .next t ∧ t.Invokes data p.seed ∧ t.prime = s.prime

/-- 45_finalization R174, an inference the spec marks as its own: the machine computes `H`: from every state in which
an invocation begins, whatever the other registers hold, the engine reaches DONE with `DIGEST = H(data, seed)`, its
eight bytes on the output, and `OFF = LENQ`. -/
def Obligations.InvocationComputesHash : Prop :=
  ∀ (s : State) (data : List Byte) (seed : Word), s.Invokes data seed →
    ∃ t : State, Host.Core.run core (operationCount data.length) s = .next t ∧ t.ph = 0b1010 ∧
      t.digest = digestOf s.prime data seed ∧ t.digestBytesOut = some (digestBytesOf s.prime data seed) ∧ t.off = t.lenq

/-- 45_finalization R175, an inference the spec marks as its own: an invocation takes exactly the rule's number of
operations: before it the engine is busy and does not stop, after it `PH = DONE`. -/
def Obligations.InvocationTakesOperationCount : Prop :=
  ∀ (s : State) (data : List Byte) (seed : Word), s.Invokes data seed →
    (∀ k < operationCount data.length, ∃ t : State, Host.Core.run core k s = .next t ∧ t.busy = true) ∧
    ∃ t : State, Host.Core.run core (operationCount data.length) s = .next t ∧ t.done = true

/-- 10_state R35, an inference the spec marks as its own: no carry-over. Two engines that begin INIT with the same
seed, length, primes and buffer go through the same phases, whatever their other registers hold, and end with the same
digest, or stop alike. -/
def Obligations.NothingCarriesOver : Prop :=
  ∀ s s' : State, s.ph = 0b0001 → s'.ph = 0b0001 → s.schedule = [] → s'.schedule = [] →
    s.seedq = s'.seedq → s.lenq = s'.lenq → s.prime = s'.prime → s.buf = s'.buf →
    ∀ k : Nat,
      (∃ t t' : State, Host.Core.run core k s = .next t ∧ Host.Core.run core k s' = .next t' ∧ t.ph = t'.ph ∧
        (t.ph = 0b1010 → t.digest = t'.digest)) ∨
      (∃ r, Host.Core.run core k s = .fault r ∧ Host.Core.run core k s' = .fault r) ∨
      (∃ r, Host.Core.run core k s = .refused r ∧ Host.Core.run core k s' = .refused r)
end

