-- ==== Sys2Proof/Laws/Decode.lean ====
section
/-! SUPPORT. The codes and the two decoders, said once. -/

namespace Sys2Proof

@[simp] theorem Phase.ofCode_code (p : Phase) : Phase.ofCode p.code = some p := by cases p <;> rfl

theorem Phase.code_of_ofCode {c : BitVec 4} {p : Phase} (h : Phase.ofCode c = some p) : c = p.code := by
  have key : ∀ p : Phase, ∀ c : BitVec 4, Phase.ofCode c = some p → c = p.code := by
    intro p; cases p <;> decide
  exact key p c h

/-- The phase that runs an operation; none for the two commands of the host. -/
def phaseOf : Instr → Option Phase
  | .init => some .init
  | .block => some .block
  | .squash => some .squash
  | .dispatch => some .dispatch
  | .mix4 => some .mix4
  | .mix3 => some .mix3
  | .mix2 => some .mix2
  | .mix1 => some .mix1
  | .final => some .final
  | .reset | .start => none

/-- A phase code decodes to an operation exactly where it is the code of that operation's phase. -/
theorem phaseOf_of_decode {c : BitVec 4} {i : Instr} (h : decode (.phase c) = .instr i) : phaseOf i = Phase.ofCode c := by
  have key : ∀ i : Instr, ∀ c : BitVec 4, decode (.phase c) = .instr i → phaseOf i = Phase.ofCode c := by
    intro i; cases i <;> decide
  exact key i c h

/-- A command vector decodes to the two commands of the host only. -/
theorem host_of_decode {c : BitVec 2} {i : Instr} (h : decode (.host c) = .instr i) : i = .reset ∨ i = .start := by
  have key : ∀ i : Instr, ∀ c : BitVec 2, decode (.host c) = .instr i → i = .reset ∨ i = .start := by
    intro i; cases i <;> decide
  exact key i c h

end Sys2Proof
end

