-- ==== Sys2Proof/Laws/State.lean ====
section
/-! SUPPORT. One lemma per field per named update of the state, so that no later proof unfolds a record update. -/

namespace Sys2Proof.Machine.State

variable (s : State)

@[simp] theorem goto_a (p : Phase) : (s.goto p).a = s.a := rfl
@[simp] theorem goto_b (p : Phase) : (s.goto p).b = s.b := rfl
@[simp] theorem goto_c (p : Phase) : (s.goto p).c = s.c := rfl
@[simp] theorem goto_d (p : Phase) : (s.goto p).d = s.d := rfl
@[simp] theorem goto_off (p : Phase) : (s.goto p).off = s.off := rfl
@[simp] theorem goto_res (p : Phase) : (s.goto p).res = s.res := rfl
@[simp] theorem goto_lenq (p : Phase) : (s.goto p).lenq = s.lenq := rfl
@[simp] theorem goto_seedq (p : Phase) : (s.goto p).seedq = s.seedq := rfl
@[simp] theorem goto_ph (p : Phase) : (s.goto p).ph = p.code := rfl
@[simp] theorem goto_digest (p : Phase) : (s.goto p).digest = s.digest := rfl
@[simp] theorem goto_prime (p : Phase) : (s.goto p).prime = s.prime := rfl
@[simp] theorem goto_buf (p : Phase) : (s.goto p).buf = s.buf := rfl
@[simp] theorem goto_ports (p : Phase) : (s.goto p).ports = s.ports := rfl
@[simp] theorem goto_schedule (p : Phase) : (s.goto p).schedule = s.schedule := rfl
@[simp] theorem goto_draws (p : Phase) : (s.goto p).draws = s.draws := rfl

@[simp] theorem setOff_a (v : Word) : (s.setOff v).a = s.a := rfl
@[simp] theorem setOff_b (v : Word) : (s.setOff v).b = s.b := rfl
@[simp] theorem setOff_c (v : Word) : (s.setOff v).c = s.c := rfl
@[simp] theorem setOff_d (v : Word) : (s.setOff v).d = s.d := rfl
@[simp] theorem setOff_off (v : Word) : (s.setOff v).off = v := rfl
@[simp] theorem setOff_res (v : Word) : (s.setOff v).res = s.res := rfl
@[simp] theorem setOff_lenq (v : Word) : (s.setOff v).lenq = s.lenq := rfl
@[simp] theorem setOff_seedq (v : Word) : (s.setOff v).seedq = s.seedq := rfl
@[simp] theorem setOff_ph (v : Word) : (s.setOff v).ph = s.ph := rfl
@[simp] theorem setOff_digest (v : Word) : (s.setOff v).digest = s.digest := rfl
@[simp] theorem setOff_prime (v : Word) : (s.setOff v).prime = s.prime := rfl
@[simp] theorem setOff_buf (v : Word) : (s.setOff v).buf = s.buf := rfl
@[simp] theorem setOff_ports (v : Word) : (s.setOff v).ports = s.ports := rfl
@[simp] theorem setOff_schedule (v : Word) : (s.setOff v).schedule = s.schedule := rfl
@[simp] theorem setOff_draws (v : Word) : (s.setOff v).draws = s.draws := rfl

@[simp] theorem advance_a (n : Nat) : (s.advance n).a = s.a := rfl
@[simp] theorem advance_b (n : Nat) : (s.advance n).b = s.b := rfl
@[simp] theorem advance_c (n : Nat) : (s.advance n).c = s.c := rfl
@[simp] theorem advance_d (n : Nat) : (s.advance n).d = s.d := rfl
@[simp] theorem advance_off (n : Nat) : (s.advance n).off = s.off + BitVec.ofNat 64 n := rfl
@[simp] theorem advance_res (n : Nat) : (s.advance n).res = s.res := rfl
@[simp] theorem advance_lenq (n : Nat) : (s.advance n).lenq = s.lenq := rfl
@[simp] theorem advance_seedq (n : Nat) : (s.advance n).seedq = s.seedq := rfl
@[simp] theorem advance_ph (n : Nat) : (s.advance n).ph = s.ph := rfl
@[simp] theorem advance_digest (n : Nat) : (s.advance n).digest = s.digest := rfl
@[simp] theorem advance_prime (n : Nat) : (s.advance n).prime = s.prime := rfl
@[simp] theorem advance_buf (n : Nat) : (s.advance n).buf = s.buf := rfl
@[simp] theorem advance_ports (n : Nat) : (s.advance n).ports = s.ports := rfl
@[simp] theorem advance_schedule (n : Nat) : (s.advance n).schedule = s.schedule := rfl
@[simp] theorem advance_draws (n : Nat) : (s.advance n).draws = s.draws := rfl

@[simp] theorem setRes_a (v : BitVec 6) : (s.setRes v).a = s.a := rfl
@[simp] theorem setRes_b (v : BitVec 6) : (s.setRes v).b = s.b := rfl
@[simp] theorem setRes_c (v : BitVec 6) : (s.setRes v).c = s.c := rfl
@[simp] theorem setRes_d (v : BitVec 6) : (s.setRes v).d = s.d := rfl
@[simp] theorem setRes_off (v : BitVec 6) : (s.setRes v).off = s.off := rfl
@[simp] theorem setRes_res (v : BitVec 6) : (s.setRes v).res = v := rfl
@[simp] theorem setRes_lenq (v : BitVec 6) : (s.setRes v).lenq = s.lenq := rfl
@[simp] theorem setRes_seedq (v : BitVec 6) : (s.setRes v).seedq = s.seedq := rfl
@[simp] theorem setRes_ph (v : BitVec 6) : (s.setRes v).ph = s.ph := rfl
@[simp] theorem setRes_digest (v : BitVec 6) : (s.setRes v).digest = s.digest := rfl
@[simp] theorem setRes_prime (v : BitVec 6) : (s.setRes v).prime = s.prime := rfl
@[simp] theorem setRes_buf (v : BitVec 6) : (s.setRes v).buf = s.buf := rfl
@[simp] theorem setRes_ports (v : BitVec 6) : (s.setRes v).ports = s.ports := rfl
@[simp] theorem setRes_schedule (v : BitVec 6) : (s.setRes v).schedule = s.schedule := rfl
@[simp] theorem setRes_draws (v : BitVec 6) : (s.setRes v).draws = s.draws := rfl

@[simp] theorem setDigest_a (v : Word) : (s.setDigest v).a = s.a := rfl
@[simp] theorem setDigest_b (v : Word) : (s.setDigest v).b = s.b := rfl
@[simp] theorem setDigest_c (v : Word) : (s.setDigest v).c = s.c := rfl
@[simp] theorem setDigest_d (v : Word) : (s.setDigest v).d = s.d := rfl
@[simp] theorem setDigest_off (v : Word) : (s.setDigest v).off = s.off := rfl
@[simp] theorem setDigest_res (v : Word) : (s.setDigest v).res = s.res := rfl
@[simp] theorem setDigest_lenq (v : Word) : (s.setDigest v).lenq = s.lenq := rfl
@[simp] theorem setDigest_seedq (v : Word) : (s.setDigest v).seedq = s.seedq := rfl
@[simp] theorem setDigest_ph (v : Word) : (s.setDigest v).ph = s.ph := rfl
@[simp] theorem setDigest_digest (v : Word) : (s.setDigest v).digest = v := rfl
@[simp] theorem setDigest_prime (v : Word) : (s.setDigest v).prime = s.prime := rfl
@[simp] theorem setDigest_buf (v : Word) : (s.setDigest v).buf = s.buf := rfl
@[simp] theorem setDigest_ports (v : Word) : (s.setDigest v).ports = s.ports := rfl
@[simp] theorem setDigest_schedule (v : Word) : (s.setDigest v).schedule = s.schedule := rfl
@[simp] theorem setDigest_draws (v : Word) : (s.setDigest v).draws = s.draws := rfl

@[simp] theorem latch_a (v n : Word) : (s.latch v n).a = s.a := rfl
@[simp] theorem latch_b (v n : Word) : (s.latch v n).b = s.b := rfl
@[simp] theorem latch_c (v n : Word) : (s.latch v n).c = s.c := rfl
@[simp] theorem latch_d (v n : Word) : (s.latch v n).d = s.d := rfl
@[simp] theorem latch_off (v n : Word) : (s.latch v n).off = s.off := rfl
@[simp] theorem latch_res (v n : Word) : (s.latch v n).res = s.res := rfl
@[simp] theorem latch_lenq (v n : Word) : (s.latch v n).lenq = n := rfl
@[simp] theorem latch_seedq (v n : Word) : (s.latch v n).seedq = v := rfl
@[simp] theorem latch_ph (v n : Word) : (s.latch v n).ph = s.ph := rfl
@[simp] theorem latch_digest (v n : Word) : (s.latch v n).digest = s.digest := rfl
@[simp] theorem latch_prime (v n : Word) : (s.latch v n).prime = s.prime := rfl
@[simp] theorem latch_buf (v n : Word) : (s.latch v n).buf = s.buf := rfl
@[simp] theorem latch_ports (v n : Word) : (s.latch v n).ports = s.ports := rfl
@[simp] theorem latch_schedule (v n : Word) : (s.latch v n).schedule = s.schedule := rfl
@[simp] theorem latch_draws (v n : Word) : (s.latch v n).draws = s.draws := rfl

@[simp] theorem freeDigest_a : (s.freeDigest).a = s.a := rfl
@[simp] theorem freeDigest_b : (s.freeDigest).b = s.b := rfl
@[simp] theorem freeDigest_c : (s.freeDigest).c = s.c := rfl
@[simp] theorem freeDigest_d : (s.freeDigest).d = s.d := rfl
@[simp] theorem freeDigest_off : (s.freeDigest).off = s.off := rfl
@[simp] theorem freeDigest_res : (s.freeDigest).res = s.res := rfl
@[simp] theorem freeDigest_lenq : (s.freeDigest).lenq = s.lenq := rfl
@[simp] theorem freeDigest_seedq : (s.freeDigest).seedq = s.seedq := rfl
@[simp] theorem freeDigest_ph : (s.freeDigest).ph = s.ph := rfl
@[simp] theorem freeDigest_digest : (s.freeDigest).digest = Config.freeWord s.draws := rfl
@[simp] theorem freeDigest_prime : (s.freeDigest).prime = s.prime := rfl
@[simp] theorem freeDigest_buf : (s.freeDigest).buf = s.buf := rfl
@[simp] theorem freeDigest_ports : (s.freeDigest).ports = s.ports := rfl
@[simp] theorem freeDigest_schedule : (s.freeDigest).schedule = s.schedule := rfl
@[simp] theorem freeDigest_draws : (s.freeDigest).draws = s.draws + 1 := rfl

@[simp] theorem freeData_a : (s.freeData).a = Config.freeWord s.draws := rfl
@[simp] theorem freeData_b : (s.freeData).b = Config.freeWord (s.draws + 1) := rfl
@[simp] theorem freeData_c : (s.freeData).c = Config.freeWord (s.draws + 2) := rfl
@[simp] theorem freeData_d : (s.freeData).d = Config.freeWord (s.draws + 3) := rfl
@[simp] theorem freeData_off : (s.freeData).off = Config.freeWord (s.draws + 4) := rfl
@[simp] theorem freeData_res : (s.freeData).res = Config.freeResidual (s.draws + 8) := rfl
@[simp] theorem freeData_lenq : (s.freeData).lenq = Config.freeWord (s.draws + 5) := rfl
@[simp] theorem freeData_seedq : (s.freeData).seedq = Config.freeWord (s.draws + 6) := rfl
@[simp] theorem freeData_ph : (s.freeData).ph = s.ph := rfl
@[simp] theorem freeData_digest : (s.freeData).digest = Config.freeWord (s.draws + 7) := rfl
@[simp] theorem freeData_prime : (s.freeData).prime = s.prime := rfl
@[simp] theorem freeData_buf : (s.freeData).buf = s.buf := rfl
@[simp] theorem freeData_ports : (s.freeData).ports = s.ports := rfl
@[simp] theorem freeData_schedule : (s.freeData).schedule = s.schedule := rfl
@[simp] theorem freeData_draws : (s.freeData).draws = s.draws + 9 := rfl

@[simp] theorem drive_a (p : Ports) : (s.drive p).a = s.a := rfl
@[simp] theorem drive_b (p : Ports) : (s.drive p).b = s.b := rfl
@[simp] theorem drive_c (p : Ports) : (s.drive p).c = s.c := rfl
@[simp] theorem drive_d (p : Ports) : (s.drive p).d = s.d := rfl
@[simp] theorem drive_off (p : Ports) : (s.drive p).off = s.off := rfl
@[simp] theorem drive_res (p : Ports) : (s.drive p).res = s.res := rfl
@[simp] theorem drive_lenq (p : Ports) : (s.drive p).lenq = s.lenq := rfl
@[simp] theorem drive_seedq (p : Ports) : (s.drive p).seedq = s.seedq := rfl
@[simp] theorem drive_ph (p : Ports) : (s.drive p).ph = s.ph := rfl
@[simp] theorem drive_digest (p : Ports) : (s.drive p).digest = s.digest := rfl
@[simp] theorem drive_prime (p : Ports) : (s.drive p).prime = s.prime := rfl
@[simp] theorem drive_buf (p : Ports) : (s.drive p).buf = s.buf := rfl
@[simp] theorem drive_ports (p : Ports) : (s.drive p).ports = p := rfl
@[simp] theorem drive_schedule (p : Ports) : (s.drive p).schedule = s.schedule := rfl
@[simp] theorem drive_draws (p : Ports) : (s.drive p).draws = s.draws := rfl

@[simp] theorem setBuf_a (m : Memory) : (s.setBuf m).a = s.a := rfl
@[simp] theorem setBuf_b (m : Memory) : (s.setBuf m).b = s.b := rfl
@[simp] theorem setBuf_c (m : Memory) : (s.setBuf m).c = s.c := rfl
@[simp] theorem setBuf_d (m : Memory) : (s.setBuf m).d = s.d := rfl
@[simp] theorem setBuf_off (m : Memory) : (s.setBuf m).off = s.off := rfl
@[simp] theorem setBuf_res (m : Memory) : (s.setBuf m).res = s.res := rfl
@[simp] theorem setBuf_lenq (m : Memory) : (s.setBuf m).lenq = s.lenq := rfl
@[simp] theorem setBuf_seedq (m : Memory) : (s.setBuf m).seedq = s.seedq := rfl
@[simp] theorem setBuf_ph (m : Memory) : (s.setBuf m).ph = s.ph := rfl
@[simp] theorem setBuf_digest (m : Memory) : (s.setBuf m).digest = s.digest := rfl
@[simp] theorem setBuf_prime (m : Memory) : (s.setBuf m).prime = s.prime := rfl
@[simp] theorem setBuf_buf (m : Memory) : (s.setBuf m).buf = m := rfl
@[simp] theorem setBuf_ports (m : Memory) : (s.setBuf m).ports = s.ports := rfl
@[simp] theorem setBuf_schedule (m : Memory) : (s.setBuf m).schedule = s.schedule := rfl
@[simp] theorem setBuf_draws (m : Memory) : (s.setBuf m).draws = s.draws := rfl

@[simp] theorem setSchedule_a (q : List Move) : (s.setSchedule q).a = s.a := rfl
@[simp] theorem setSchedule_b (q : List Move) : (s.setSchedule q).b = s.b := rfl
@[simp] theorem setSchedule_c (q : List Move) : (s.setSchedule q).c = s.c := rfl
@[simp] theorem setSchedule_d (q : List Move) : (s.setSchedule q).d = s.d := rfl
@[simp] theorem setSchedule_off (q : List Move) : (s.setSchedule q).off = s.off := rfl
@[simp] theorem setSchedule_res (q : List Move) : (s.setSchedule q).res = s.res := rfl
@[simp] theorem setSchedule_lenq (q : List Move) : (s.setSchedule q).lenq = s.lenq := rfl
@[simp] theorem setSchedule_seedq (q : List Move) : (s.setSchedule q).seedq = s.seedq := rfl
@[simp] theorem setSchedule_ph (q : List Move) : (s.setSchedule q).ph = s.ph := rfl
@[simp] theorem setSchedule_digest (q : List Move) : (s.setSchedule q).digest = s.digest := rfl
@[simp] theorem setSchedule_prime (q : List Move) : (s.setSchedule q).prime = s.prime := rfl
@[simp] theorem setSchedule_buf (q : List Move) : (s.setSchedule q).buf = s.buf := rfl
@[simp] theorem setSchedule_ports (q : List Move) : (s.setSchedule q).ports = s.ports := rfl
@[simp] theorem setSchedule_schedule (q : List Move) : (s.setSchedule q).schedule = q := rfl
@[simp] theorem setSchedule_draws (q : List Move) : (s.setSchedule q).draws = s.draws := rfl

@[simp] theorem setAcc_a (r : Acc) (v : Word) : (s.setAcc r v).a = if r = .a then v else s.a := by
  cases r <;> rfl
@[simp] theorem setAcc_b (r : Acc) (v : Word) : (s.setAcc r v).b = if r = .b then v else s.b := by
  cases r <;> rfl
@[simp] theorem setAcc_c (r : Acc) (v : Word) : (s.setAcc r v).c = if r = .c then v else s.c := by
  cases r <;> rfl
@[simp] theorem setAcc_d (r : Acc) (v : Word) : (s.setAcc r v).d = if r = .d then v else s.d := by
  cases r <;> rfl
@[simp] theorem setAcc_off (r : Acc) (v : Word) : (s.setAcc r v).off = s.off := by cases r <;> rfl
@[simp] theorem setAcc_res (r : Acc) (v : Word) : (s.setAcc r v).res = s.res := by cases r <;> rfl
@[simp] theorem setAcc_lenq (r : Acc) (v : Word) : (s.setAcc r v).lenq = s.lenq := by cases r <;> rfl
@[simp] theorem setAcc_seedq (r : Acc) (v : Word) : (s.setAcc r v).seedq = s.seedq := by cases r <;> rfl
@[simp] theorem setAcc_ph (r : Acc) (v : Word) : (s.setAcc r v).ph = s.ph := by cases r <;> rfl
@[simp] theorem setAcc_digest (r : Acc) (v : Word) : (s.setAcc r v).digest = s.digest := by cases r <;> rfl
@[simp] theorem setAcc_prime (r : Acc) (v : Word) : (s.setAcc r v).prime = s.prime := by cases r <;> rfl
@[simp] theorem setAcc_buf (r : Acc) (v : Word) : (s.setAcc r v).buf = s.buf := by cases r <;> rfl
@[simp] theorem setAcc_ports (r : Acc) (v : Word) : (s.setAcc r v).ports = s.ports := by cases r <;> rfl
@[simp] theorem setAcc_schedule (r : Acc) (v : Word) : (s.setAcc r v).schedule = s.schedule := by cases r <;> rfl
@[simp] theorem setAcc_draws (r : Acc) (v : Word) : (s.setAcc r v).draws = s.draws := by cases r <;> rfl

@[simp] theorem acc_a : s.acc .a = s.a := rfl
@[simp] theorem acc_b : s.acc .b = s.b := rfl
@[simp] theorem acc_c : s.acc .c = s.c := rfl
@[simp] theorem acc_d : s.acc .d = s.d := rfl

/-- Reading an accumulator after writing one. -/
@[simp] theorem acc_setAcc (r q : Acc) (v : Word) : (s.setAcc r v).acc q = if r = q then v else s.acc q := by
  cases r <;> cases q <;> rfl
@[simp] theorem acc_goto (p : Phase) (r : Acc) : (s.goto p).acc r = s.acc r := by cases r <;> rfl
@[simp] theorem acc_setOff (v : Word) (r : Acc) : (s.setOff v).acc r = s.acc r := by cases r <;> rfl
@[simp] theorem acc_advance (n : Nat) (r : Acc) : (s.advance n).acc r = s.acc r := by cases r <;> rfl
@[simp] theorem acc_setRes (v : BitVec 6) (r : Acc) : (s.setRes v).acc r = s.acc r := by cases r <;> rfl
@[simp] theorem acc_setDigest (v : Word) (r : Acc) : (s.setDigest v).acc r = s.acc r := by cases r <;> rfl
@[simp] theorem acc_latch (v n : Word) (r : Acc) : (s.latch v n).acc r = s.acc r := by cases r <;> rfl
@[simp] theorem acc_freeDigest (r : Acc) : (s.freeDigest).acc r = s.acc r := by cases r <;> rfl
@[simp] theorem acc_drive (p : Ports) (r : Acc) : (s.drive p).acc r = s.acc r := by cases r <;> rfl
@[simp] theorem acc_setBuf (m : Memory) (r : Acc) : (s.setBuf m).acc r = s.acc r := by cases r <;> rfl
@[simp] theorem acc_setSchedule (q : List Move) (r : Acc) : (s.setSchedule q).acc r = s.acc r := by cases r <;> rfl

/-- Giving the schedule the value it has changes nothing. -/
@[simp] theorem setSchedule_self : s.setSchedule s.schedule = s := rfl

end Sys2Proof.Machine.State
end

