-- ==== Sys2Proof/Laws/Memory.lean ====
section
/-! SUPPORT. The laws of the buffer: a read after a write, the canonical form, consecutive bytes, little-endian words. -/

namespace Sys2Proof.Machine

/-! ### One byte -/

theorem Memory.byteAt_setByte (m : Memory) (i j : Nat) (v : Byte) :
    Memory.byteAt (Memory.setByte m i v) j = if i = j then some v else Memory.byteAt m j := by
  induction m with
  | nil => by_cases h : i = j <;> simp [Memory.setByte, Memory.byteAt, h]
  | cons x m ih =>
    obtain ⟨k, u⟩ := x
    simp only [Memory.setByte]
    split_ifs with h1 h2 <;> simp only [Memory.byteAt, ih] <;> split_ifs <;> first | rfl | omega

theorem Memory.mem_setByte {m : Memory} {i : Nat} {v : Byte} {x : Host.Cell} (h : x ∈ Memory.setByte m i v) :
    x = (i, v) ∨ x ∈ m := by
  induction m with
  | nil => simpa [Memory.setByte] using h
  | cons y m ih =>
    obtain ⟨k, u⟩ := y
    simp only [Memory.setByte] at h
    split_ifs at h
    · simpa using h
    · rcases List.mem_cons.mp h with h | h
      · exact .inl h
      · exact .inr (List.mem_cons_of_mem _ h)
    · rcases List.mem_cons.mp h with h | h
      · exact .inr (by simp [h])
      · exact (ih h).imp_right (List.mem_cons_of_mem _)

/-- Writing a byte keeps the canonical form. -/
theorem Memory.setByte_wf {m : Memory} (h : Memory.wf m) {i : Nat} (hi : i < 2 ^ 64) (v : Byte) :
    Memory.wf (Memory.setByte m i v) := by
  induction m with
  | nil => simpa [Memory.wf, Memory.setByte] using hi
  | cons x m ih =>
    obtain ⟨k, u⟩ := x
    obtain ⟨hp, hb⟩ := h
    rw [List.pairwise_cons] at hp
    have hk : k < 2 ^ 64 := hb (k, u) (by simp)
    have hm : Memory.wf m := ⟨hp.2, fun y hy => hb y (List.mem_cons_of_mem _ hy)⟩
    simp only [Memory.setByte]
    split_ifs with h1 h2
    · refine ⟨List.pairwise_cons.mpr ⟨fun y hy => ?_, List.pairwise_cons.mpr hp⟩, fun y hy => ?_⟩
      · rcases List.mem_cons.mp hy with rfl | hy
        · exact h1
        · exact Nat.lt_trans h1 (hp.1 y hy)
      · rcases List.mem_cons.mp hy with rfl | hy
        · exact hi
        · exact hb y hy
    · subst h2
      refine ⟨List.pairwise_cons.mpr ⟨hp.1, hp.2⟩, fun y hy => ?_⟩
      rcases List.mem_cons.mp hy with rfl | hy
      · exact hi
      · exact hm.2 y hy
    · have ht := ih hm
      refine ⟨List.pairwise_cons.mpr ⟨fun y hy => ?_, ht.1⟩, fun y hy => ?_⟩
      · rcases Memory.mem_setByte hy with rfl | hy
        · show k < i
          omega
        · exact hp.1 y hy
      · rcases List.mem_cons.mp hy with rfl | hy
        · exact hk
        · exact ht.2 y hy

/-! ### Consecutive bytes -/

/-- Writing bytes keeps the canonical form where the last one lies below 2^64. -/
theorem Memory.writeBytes_wf {m : Memory} (h : Memory.wf m) {i : Nat} {vs : List Byte} (hi : i + vs.length ≤ 2 ^ 64) :
    Memory.wf (Memory.writeBytes m i vs) := by
  induction vs generalizing m i with
  | nil => exact h
  | cons v vs ih =>
    simp only [List.length_cons] at hi
    exact ih (Memory.setByte_wf h (by omega) v) (by omega)

theorem Memory.byteAt_writeBytes (m : Memory) (i j : Nat) (vs : List Byte) :
    Memory.byteAt (Memory.writeBytes m i vs) j =
      if i ≤ j ∧ j < i + vs.length then vs[j - i]? else Memory.byteAt m j := by
  induction vs generalizing m i with
  | nil =>
    have : ¬(i ≤ j ∧ j < i + ([] : List Byte).length) := by simp
    rw [if_neg this]; rfl
  | cons v vs ih =>
    simp only [Memory.writeBytes, ih, Memory.byteAt_setByte, List.length_cons]
    by_cases h1 : i = j
    · subst h1
      rw [if_neg (by omega), if_pos rfl, if_pos ⟨Nat.le_refl _, by omega⟩]
      simp
    · by_cases h2 : i + 1 ≤ j ∧ j < i + 1 + vs.length
      · rw [if_pos h2, if_pos ⟨by omega, by omega⟩, show j - i = (j - (i + 1)) + 1 by omega]
        simp
      · rw [if_neg h2, if_neg h1, if_neg (by omega)]

theorem Memory.mem_ofBytesFrom {i : Nat} {vs : List Byte} {x : Host.Cell} (h : x ∈ Memory.ofBytesFrom i vs) :
    i ≤ x.1 ∧ x.1 < i + vs.length := by
  induction vs generalizing i with
  | nil => simp [Memory.ofBytesFrom] at h
  | cons v vs ih =>
    simp only [Memory.ofBytesFrom, List.mem_cons] at h
    rcases h with rfl | h
    · simp
    · have := ih h
      simp only [List.length_cons]
      omega

theorem Memory.ofBytesFrom_pairwise (i : Nat) (vs : List Byte) :
    (Memory.ofBytesFrom i vs).Pairwise (fun x y => x.1 < y.1) := by
  induction vs generalizing i with
  | nil => exact List.Pairwise.nil
  | cons v vs ih =>
    refine List.pairwise_cons.mpr ⟨fun y hy => ?_, ih (i + 1)⟩
    have := Memory.mem_ofBytesFrom hy
    show i < y.1
    omega

/-- A placed input has the canonical form. -/
theorem Memory.ofBytes_wf {vs : List Byte} (h : vs.length < 2 ^ 64) : Memory.wf (Memory.ofBytes vs) := by
  refine ⟨Memory.ofBytesFrom_pairwise 0 vs, fun x hx => ?_⟩
  have := Memory.mem_ofBytesFrom hx
  omega

theorem Memory.byteAt_ofBytesFrom (i j : Nat) (vs : List Byte) :
    Memory.byteAt (Memory.ofBytesFrom i vs) j = if i ≤ j then vs[j - i]? else none := by
  induction vs generalizing i with
  | nil => simp [Memory.ofBytesFrom, Memory.byteAt]
  | cons v vs ih =>
    simp only [Memory.ofBytesFrom, Memory.byteAt, ih]
    by_cases h1 : i = j
    · simp [h1]
    · rw [if_neg h1]
      by_cases h2 : i + 1 ≤ j
      · rw [if_pos h2, if_pos (by omega), show j - i = (j - (i + 1)) + 1 by omega]
        simp
      · rw [if_neg h2, if_neg (by omega)]

/-- Byte `i` of a placed input is at offset `i` (20_memory R51). -/
theorem Memory.byteAt_ofBytes (vs : List Byte) (j : Nat) : Memory.byteAt (Memory.ofBytes vs) j = vs[j]? := by
  simp [Memory.ofBytes, Memory.byteAt_ofBytesFrom]

/-- What a read of consecutive bytes answers, byte by byte. -/
theorem Memory.readBytes_eq_some_iff (m : Memory) (i n : Nat) (vs : List Byte) :
    Memory.readBytes m i n = some vs ↔ vs.length = n ∧ ∀ j < n, Memory.byteAt m (i + j) = vs[j]? := by
  induction n generalizing i vs with
  | zero =>
    simp only [Memory.readBytes, Option.some.injEq, Nat.not_lt_zero, false_implies, implies_true, and_true]
    exact ⟨fun h => by simp [← h], fun h => (List.length_eq_zero_iff.mp h).symm⟩
  | succ n ih =>
    simp only [Memory.readBytes]
    constructor
    · intro h
      split at h
      · rename_i v ws hv hws
        obtain rfl := Option.some.inj h
        obtain ⟨hl, hb⟩ := (ih (i + 1) ws).mp hws
        refine ⟨by simp [hl], fun j hj => ?_⟩
        cases j with
        | zero => simpa using hv
        | succ j => simpa [show i + 1 + j = i + (j + 1) by omega] using hb j (by omega)
      · cases h
    · rintro ⟨hl, hb⟩
      cases vs with
      | nil => simp at hl
      | cons v ws =>
        have h0 : Memory.byteAt m i = some v := by simpa using hb 0 (by omega)
        have hr : Memory.readBytes m (i + 1) n = some ws :=
          (ih (i + 1) ws).mpr ⟨by simpa using hl, fun j hj => by
            simpa [show i + 1 + j = i + (j + 1) by omega] using hb (j + 1) (by omega)⟩
        rw [h0, hr]

/-- Consecutive bytes can be read exactly when each of them has been placed. -/
theorem Memory.readBytes_isSome_iff (m : Memory) (i n : Nat) :
    (Memory.readBytes m i n).isSome = true ↔ ∀ j < n, (Memory.byteAt m (i + j)).isSome = true := by
  induction n generalizing i with
  | zero => simp [Memory.readBytes]
  | succ n ih =>
    simp only [Memory.readBytes]
    constructor
    · intro h j hj
      split at h
      · rename_i v ws hv hws
        cases j with
        | zero => simp [hv]
        | succ j =>
          have := (ih (i + 1)).mp (by simp [hws]) j (by omega)
          simpa [show i + 1 + j = i + (j + 1) by omega] using this
      · simp at h
    · intro h
      have h0 := h 0 (by omega)
      have hr : (Memory.readBytes m (i + 1) n).isSome = true := (ih (i + 1)).mpr fun j hj => by
        simpa [show i + 1 + j = i + (j + 1) by omega] using h (j + 1) (by omega)
      obtain ⟨v, hv⟩ := Option.isSome_iff_exists.mp h0
      obtain ⟨ws, hws⟩ := Option.isSome_iff_exists.mp hr
      simp only [Nat.add_zero] at hv
      rw [hv, hws]
      rfl

/-- Reading inside an input that a buffer holds gives its bytes. -/
theorem Memory.readBytes_of_holds {m : Memory} {data : List Byte} (hm : ∀ i < data.length, Memory.byteAt m i = data[i]?)
    {i n : Nat} (h : i + n ≤ data.length) : Memory.readBytes m i n = some ((data.drop i).take n) := by
  rw [Memory.readBytes_eq_some_iff]
  refine ⟨by simp; omega, fun j hj => ?_⟩
  rw [hm _ (by omega), List.getElem?_take_of_lt hj, List.getElem?_drop]

/-- One read split into two. -/
theorem Memory.readBytes_add {m : Memory} {i n k : Nat} {vs : List Byte}
    (h : Memory.readBytes m i (n + k) = some vs) :
    Memory.readBytes m i n = some (vs.take n) ∧ Memory.readBytes m (i + n) k = some (vs.drop n) := by
  rw [Memory.readBytes_eq_some_iff] at h
  obtain ⟨hl, hb⟩ := h
  constructor
  · rw [Memory.readBytes_eq_some_iff]
    exact ⟨by simp; omega, fun j hj => by rw [hb j (by omega), List.getElem?_take_of_lt hj]⟩
  · rw [Memory.readBytes_eq_some_iff]
    exact ⟨by simp; omega, fun j hj => by rw [Nat.add_assoc, hb (n + j) (by omega), List.getElem?_drop]⟩

/-! ### Little-endian words -/

theorem leWord_cons (v : Byte) (vs : List Byte) : leWord (v :: vs) = v.setWidth 64 ||| (leWord vs <<< 8) := rfl

/-- One byte more: the low byte, and the rest times 2^8 (20_memory R55). -/
theorem leWord_cons_toNat (v : Byte) (vs : List Byte) :
    (leWord (v :: vs)).toNat = (v.toNat + 2 ^ 8 * (leWord vs).toNat) % 2 ^ 64 := by
  have hv : v.toNat < 2 ^ 8 := v.isLt
  rw [leWord_cons, BitVec.toNat_or, BitVec.toNat_shiftLeft, BitVec.toNat_setWidth,
    Nat.mod_eq_of_lt (show v.toNat < 2 ^ 64 by omega), Nat.shiftLeft_eq]
  have h1 : (leWord vs).toNat * 2 ^ 8 % 2 ^ 64 = 2 ^ 8 * ((leWord vs).toNat % 2 ^ 56) := by omega
  rw [h1, Nat.or_comm, ← Nat.two_pow_add_eq_or_of_lt hv]
  omega

/-- A word of at most eight bytes is below 2^(8k) (20_memory R56). -/
theorem leWord_lt (vs : List Byte) (h : vs.length ≤ 8) : (leWord vs).toNat < 2 ^ (8 * vs.length) := by
  induction vs with
  | nil => decide
  | cons v vs ih =>
    have hv : v.toNat < 2 ^ 8 := v.isLt
    have hi := ih (by simp only [List.length_cons] at h; omega)
    rw [leWord_cons_toNat]
    refine Nat.lt_of_le_of_lt (Nat.mod_le _ _) ?_
    rw [List.length_cons, show 8 * (vs.length + 1) = 8 * vs.length + 8 by omega, Nat.pow_add]
    generalize 2 ^ (8 * vs.length) = p at hi
    omega

/-- Two buffers agree below an offset when no byte below it differs. -/
theorem Memory.agreeBelow_self (m : Memory) (n : Nat) : Memory.agreeBelow m m n = true := by
  simp [Memory.agreeBelow]

theorem Memory.byteAt_filter (m : Memory) (n j : Nat) :
    Memory.byteAt (m.filter (fun x => decide (x.1 < n))) j = if j < n then Memory.byteAt m j else none := by
  induction m with
  | nil => simp [Memory.byteAt]
  | cons x m ih =>
    obtain ⟨k, u⟩ := x
    by_cases h : k < n
    · simp only [List.filter_cons, h, decide_true, if_true, Memory.byteAt, ih]
      split_ifs <;> first | rfl | omega
    · simp only [List.filter_cons, h, decide_false, Bool.false_eq_true, if_false, Memory.byteAt, ih]
      split_ifs <;> first | rfl | omega

theorem Memory.byteAt_of_agreeBelow {m m' : Memory} {n : Nat} (h : Memory.agreeBelow m m' n = true) {j : Nat}
    (hj : j < n) : Memory.byteAt m j = Memory.byteAt m' j := by
  have h := of_decide_eq_true h
  have h1 := Memory.byteAt_filter m n j
  rw [h, Memory.byteAt_filter, if_pos hj, if_pos hj] at h1
  exact h1.symm

theorem Memory.byteAt_eq_some_of_mem {m : Memory} (h : m.Pairwise (fun x y => x.1 < y.1)) {x : Host.Cell} (hx : x ∈ m) :
    Memory.byteAt m x.1 = some x.2 := by
  induction m with
  | nil => cases hx
  | cons y m ih =>
    obtain ⟨k, u⟩ := y
    rw [List.pairwise_cons] at h
    rcases List.mem_cons.mp hx with rfl | hx
    · simp [Memory.byteAt]
    · have : k < x.1 := h.1 x hx
      rw [Memory.byteAt, if_neg (by omega), ih h.2 hx]

theorem Memory.mem_of_byteAt_eq_some {m : Memory} {i : Nat} {v : Byte} (h : Memory.byteAt m i = some v) :
    (i, v) ∈ m := by
  induction m with
  | nil => simp [Memory.byteAt] at h
  | cons y m ih =>
    obtain ⟨k, u⟩ := y
    rw [Memory.byteAt] at h
    split_ifs at h with hk
    · obtain rfl := hk; obtain rfl := Option.some.inj h; simp
    · exact List.mem_cons_of_mem _ (ih h)

/-- Equal memories are equal data: two buffers in the canonical form with the same bytes are the same list. -/
theorem Memory.ext_of_byteAt {m m' : Memory} (h : m.Pairwise (fun x y => x.1 < y.1))
    (h' : m'.Pairwise (fun x y => x.1 < y.1)) (hb : ∀ j, Memory.byteAt m j = Memory.byteAt m' j) : m = m' := by
  have hmem : ∀ x : Host.Cell, x ∈ m ↔ x ∈ m' := fun x =>
    ⟨fun hx => Memory.mem_of_byteAt_eq_some (i := x.1) (v := x.2) (by rw [← hb]; exact Memory.byteAt_eq_some_of_mem h hx),
     fun hx => Memory.mem_of_byteAt_eq_some (i := x.1) (v := x.2) (by rw [hb]; exact Memory.byteAt_eq_some_of_mem h' hx)⟩
  have nd : ∀ l : Memory, l.Pairwise (fun x y => x.1 < y.1) → l.Nodup := fun l hl =>
    hl.imp fun hxy heq => by rw [heq] at hxy; exact Nat.lt_irrefl _ hxy
  exact List.Perm.eq_of_pairwise (fun x y _ _ hxy hyx => absurd (Nat.lt_trans hxy hyx) (Nat.lt_irrefl _)) h h'
    ((List.perm_ext_iff_of_nodup (nd m h) (nd m' h')).mpr hmem)

/-- In the canonical form, agreement below an offset is agreement of every byte below it. -/
theorem Memory.agreeBelow_iff {m m' : Memory} (h : Memory.wf m) (h' : Memory.wf m') (n : Nat) :
    Memory.agreeBelow m m' n = true ↔ ∀ j < n, Memory.byteAt m j = Memory.byteAt m' j := by
  refine ⟨fun ha j hj => Memory.byteAt_of_agreeBelow ha hj, fun ha => decide_eq_true ?_⟩
  refine Memory.ext_of_byteAt (h.1.filter _) (h'.1.filter _) fun j => ?_
  rw [Memory.byteAt_filter, Memory.byteAt_filter]
  split_ifs with hj
  · exact ha j hj
  · rfl

end Sys2Proof.Machine
end

