-- ==== Sys2Proof/Laws/Ops.lean ====
section
/-! SUPPORT. For each shared operation, once, everything it can do. -/

namespace Sys2Proof.Machine

/-! ### Going on with a result -/

@[simp] theorem andThen_next {α β : Type} (v : α) (f : α → Host.Outcome β Fault Refusal) :
    andThen (.next v) f = f v := rfl

@[simp] theorem andThen_fault {α β : Type} (r : Fault) (f : α → Host.Outcome β Fault Refusal) :
    andThen (.fault r) f = .fault r := rfl

@[simp] theorem andThen_refused {α β : Type} (r : Refusal) (f : α → Host.Outcome β Fault Refusal) :
    andThen (.refused r) f = .refused r := rfl

/-- A composite goes on exactly when its first part does and the rest does with its result. -/
theorem andThen_eq_next_iff {α β : Type} (x : Host.Outcome α Fault Refusal) (f : α → Host.Outcome β Fault Refusal)
    (w : β) : andThen x f = .next w ↔ ∃ v, x = .next v ∧ f v = .next w := by
  cases x <;> simp [andThen]

/-! ### Reading the buffer -/

/-- A read answers exactly when it lies inside `[0, LENQ)` and every byte of it has been placed. -/
theorem memRead_eq_next_iff (s : State) (addr : Word) (n : Nat) (w : Word) :
    memRead s addr n = .next w ↔
      addr.toNat + n ≤ s.lenq.toNat ∧ ∃ vs, Memory.readBytes s.buf addr.toNat n = some vs ∧ w = leWord vs := by
  unfold memRead
  split_ifs with h
  · split
    · rename_i vs hvs
      simp only [Host.Outcome.next.injEq, Option.some.injEq, h, true_and, hvs, exists_eq_left']
      exact eq_comm
    · rename_i hn
      simp [hn]
  · simp [h]

/-- A read of placed bytes inside `[0, LENQ)` answers their little-endian word. -/
theorem memRead_of_readBytes {s : State} {addr : Word} {n : Nat} {vs : List Byte} (h : addr.toNat + n ≤ s.lenq.toNat)
    (hv : Memory.readBytes s.buf addr.toNat n = some vs) : memRead s addr n = .next (leWord vs) :=
  (memRead_eq_next_iff s addr n _).mpr ⟨h, vs, hv, rfl⟩

/-- A read depends on the latched length and the buffer only. -/
theorem memRead_congr {s t : State} (hl : s.lenq = t.lenq) (hb : s.buf = t.buf) (addr : Word) (n : Nat) :
    memRead s addr n = memRead t addr n := by
  unfold memRead
  rw [hl, hb]

theorem fetch64_eq_next_iff (s : State) (w : Word) (t : State) :
    fetch64 s = .next (w, t) ↔ memRead s s.off 8 = .next w ∧ t = s.advance 8 := by
  rw [fetch64, andThen_eq_next_iff]
  constructor
  · rintro ⟨v, hv, h⟩
    simp only [Host.Outcome.next.injEq, Prod.mk.injEq] at h
    obtain ⟨rfl, rfl⟩ := h
    exact ⟨hv, rfl⟩
  · rintro ⟨hv, rfl⟩
    exact ⟨w, hv, rfl⟩

theorem fetchTail_eq_next_iff (s : State) (w : Word) (t : State) :
    fetchTail s = .next (w, t) ↔
      memRead s s.off (partialLength s.res) = .next w ∧ t = s.advance (partialLength s.res) := by
  rw [fetchTail, andThen_eq_next_iff]
  constructor
  · rintro ⟨v, hv, h⟩
    simp only [Host.Outcome.next.injEq, Prod.mk.injEq] at h
    obtain ⟨rfl, rfl⟩ := h
    exact ⟨hv, rfl⟩
  · rintro ⟨hv, rfl⟩
    exact ⟨w, hv, rfl⟩

/-! ### The partial length (30_encoding R89) -/

theorem partialLength_eq (r : BitVec 6) : partialLength r = if r.toNat % 8 = 0 then 8 else r.toNat % 8 := by
  revert r; decide

theorem partialLength_pos (r : BitVec 6) : 1 ≤ partialLength r := by
  rw [partialLength_eq]; split_ifs <;> omega

theorem partialLength_le (r : BitVec 6) : partialLength r ≤ 8 := by
  rw [partialLength_eq]; split_ifs <;> omega

/-! ### The frame of the mixing operations: they write accumulators only -/

@[simp] theorem mixup_off (s : State) (t o : Acc) (v p : Word) : (mixup s t o v p).off = s.off := by
  simp [mixup]
@[simp] theorem mixup_res (s : State) (t o : Acc) (v p : Word) : (mixup s t o v p).res = s.res := by
  simp [mixup]
@[simp] theorem mixup_lenq (s : State) (t o : Acc) (v p : Word) : (mixup s t o v p).lenq = s.lenq := by
  simp [mixup]
@[simp] theorem mixup_seedq (s : State) (t o : Acc) (v p : Word) : (mixup s t o v p).seedq = s.seedq := by
  simp [mixup]
@[simp] theorem mixup_ph (s : State) (t o : Acc) (v p : Word) : (mixup s t o v p).ph = s.ph := by
  simp [mixup]
@[simp] theorem mixup_digest (s : State) (t o : Acc) (v p : Word) : (mixup s t o v p).digest = s.digest := by
  simp [mixup]
@[simp] theorem mixup_prime (s : State) (t o : Acc) (v p : Word) : (mixup s t o v p).prime = s.prime := by
  simp [mixup]
@[simp] theorem mixup_buf (s : State) (t o : Acc) (v p : Word) : (mixup s t o v p).buf = s.buf := by
  simp [mixup]
@[simp] theorem mixup_ports (s : State) (t o : Acc) (v p : Word) : (mixup s t o v p).ports = s.ports := by
  simp [mixup]
@[simp] theorem mixup_schedule (s : State) (t o : Acc) (v p : Word) : (mixup s t o v p).schedule = s.schedule := by
  simp [mixup]
@[simp] theorem mixup_draws (s : State) (t o : Acc) (v p : Word) : (mixup s t o v p).draws = s.draws := by
  simp [mixup]

@[simp] theorem butterfly_off (s : State) (w0 w1 w2 w3 : Word) : (butterfly s w0 w1 w2 w3).off = s.off := rfl
@[simp] theorem butterfly_res (s : State) (w0 w1 w2 w3 : Word) : (butterfly s w0 w1 w2 w3).res = s.res := rfl
@[simp] theorem butterfly_lenq (s : State) (w0 w1 w2 w3 : Word) : (butterfly s w0 w1 w2 w3).lenq = s.lenq := rfl
@[simp] theorem butterfly_seedq (s : State) (w0 w1 w2 w3 : Word) : (butterfly s w0 w1 w2 w3).seedq = s.seedq := rfl
@[simp] theorem butterfly_ph (s : State) (w0 w1 w2 w3 : Word) : (butterfly s w0 w1 w2 w3).ph = s.ph := rfl
@[simp] theorem butterfly_digest (s : State) (w0 w1 w2 w3 : Word) : (butterfly s w0 w1 w2 w3).digest = s.digest := rfl
@[simp] theorem butterfly_prime (s : State) (w0 w1 w2 w3 : Word) : (butterfly s w0 w1 w2 w3).prime = s.prime := rfl
@[simp] theorem butterfly_buf (s : State) (w0 w1 w2 w3 : Word) : (butterfly s w0 w1 w2 w3).buf = s.buf := rfl
@[simp] theorem butterfly_ports (s : State) (w0 w1 w2 w3 : Word) : (butterfly s w0 w1 w2 w3).ports = s.ports := rfl
@[simp] theorem butterfly_schedule (s : State) (w0 w1 w2 w3 : Word) : (butterfly s w0 w1 w2 w3).schedule = s.schedule := rfl
@[simp] theorem butterfly_draws (s : State) (w0 w1 w2 w3 : Word) : (butterfly s w0 w1 w2 w3).draws = s.draws := rfl

/-- The four accumulators after a mixup step of two different registers (44_tail_dispatch R151). -/
theorem acc_mixup (s : State) {t o : Acc} (h : t ≠ o) (v p : Word) (r : Acc) :
    (mixup s t o v p).acc r =
      if r = t then bxor (s.acc t) (mullo (add (s.acc o) v) p)
      else if r = o then add (s.acc o) (mulhi (add (s.acc o) v) p)
      else s.acc r := by
  cases t <;> cases o <;> first | exact absurd rfl h | (cases r <;> simp [mixup])

@[simp] theorem afterBlock_a (s : State) : (afterBlock s).a = s.a := by
  unfold afterBlock; split <;> rfl
@[simp] theorem afterBlock_b (s : State) : (afterBlock s).b = s.b := by
  unfold afterBlock; split <;> rfl
@[simp] theorem afterBlock_c (s : State) : (afterBlock s).c = s.c := by
  unfold afterBlock; split <;> rfl
@[simp] theorem afterBlock_d (s : State) : (afterBlock s).d = s.d := by
  unfold afterBlock; split <;> rfl
@[simp] theorem afterBlock_off (s : State) : (afterBlock s).off = s.off := by
  unfold afterBlock; split <;> rfl
@[simp] theorem afterBlock_res (s : State) : (afterBlock s).res = s.res := by
  unfold afterBlock; split <;> rfl
@[simp] theorem afterBlock_lenq (s : State) : (afterBlock s).lenq = s.lenq := by
  unfold afterBlock; split <;> rfl
@[simp] theorem afterBlock_seedq (s : State) : (afterBlock s).seedq = s.seedq := by
  unfold afterBlock; split <;> rfl
@[simp] theorem afterBlock_digest (s : State) : (afterBlock s).digest = s.digest := by
  unfold afterBlock; split <;> rfl
@[simp] theorem afterBlock_prime (s : State) : (afterBlock s).prime = s.prime := by
  unfold afterBlock; split <;> rfl
@[simp] theorem afterBlock_buf (s : State) : (afterBlock s).buf = s.buf := by
  unfold afterBlock; split <;> rfl
@[simp] theorem afterBlock_ports (s : State) : (afterBlock s).ports = s.ports := by
  unfold afterBlock; split <;> rfl
@[simp] theorem afterBlock_schedule (s : State) : (afterBlock s).schedule = s.schedule := by
  unfold afterBlock; split <;> rfl
@[simp] theorem afterBlock_draws (s : State) : (afterBlock s).draws = s.draws := by
  unfold afterBlock; split <;> rfl

end Sys2Proof.Machine
end

