-- ==== Sys2Proof/Laws/Exec.lean ====
section
/-! SUPPORT. Inversion of the meanings: what a next state of each kind of instruction is. -/

namespace Sys2Proof.Machine

/-- The reads an instruction issues answer, where the request lies inside the input and its bytes have been placed. -/
theorem memRead_answers {s : State} {addr : Word} {n : Nat} (hb : addr.toNat + n ≤ s.lenq.toNat)
    (hf : ∀ j < n, (Memory.byteAt s.buf (addr.toNat + j)).isSome = true) : ∃ w, memRead s addr n = .next w := by
  obtain ⟨vs, hv⟩ := Option.isSome_iff_exists.mp ((Memory.readBytes_isSome_iff ..).mpr hf)
  exact ⟨_, memRead_of_readBytes hb hv⟩

/-- A read answers, or stops by one of its two names. -/
theorem memRead_cases (s : State) (addr : Word) (n : Nat) :
    (∃ w, memRead s addr n = .next w) ∨ memRead s addr n = .fault .outOfBounds ∨
      memRead s addr n = .refused .unfilledByte := by
  unfold memRead
  split
  · split
    · exact .inl ⟨_, rfl⟩
    · exact .inr (.inr rfl)
  · exact .inr (.inl rfl)

/-- The phase after a block (42_block_loop R132). -/
theorem afterBlock_ph (s : State) :
    (afterBlock s).ph = if 32 ≤ (s.lenq - s.off).toNat then Phase.block.code else Phase.squash.code := by
  unfold afterBlock moreBlocks
  simp only [decide_eq_true_eq]
  split_ifs <;> rfl

/-- BLOCK that goes on has read four full words at `OFF` inside the input. -/
theorem execBlock_next {s t : State} (h : execBlock s = .next t) :
    s.off.toNat + 32 ≤ s.lenq.toNat ∧
      ∃ w0 w1 w2 w3, memRead s s.off 8 = .next w0 ∧ memRead s (add s.off 8) 8 = .next w1 ∧
        memRead s (add s.off 16) 8 = .next w2 ∧ memRead s (add s.off 24) 8 = .next w3 ∧
        t = afterBlock ((butterfly s w0 w1 w2 w3).advance 32) := by
  simp only [execBlock, andThen_eq_next_iff] at h
  obtain ⟨w0, h0, w1, h1, w2, h2, w3, h3, h4⟩ := h
  refine ⟨?_, w0, w1, w2, w3, h0, h1, h2, h3, (Host.Outcome.next.inj h4).symm⟩
  have b0 := ((memRead_eq_next_iff ..).mp h0).1
  have b1 := ((memRead_eq_next_iff ..).mp h1).1
  have b2 := ((memRead_eq_next_iff ..).mp h2).1
  have b3 := ((memRead_eq_next_iff ..).mp h3).1
  have := s.lenq.isLt
  simp only [add, BitVec.toNat_add, BitVec.reduceToNat] at b1 b2 b3
  omega

/-- A mixing operation on a full word that goes on has read it at `OFF`. -/
theorem fetch64_then_next {s t : State} {f : Word × State → State}
    (h : (andThen (fetch64 s) fun x => .next (f x)) = .next t) :
    ∃ w, memRead s s.off 8 = .next w ∧ t = f (w, s.advance 8) := by
  obtain ⟨⟨w, u⟩, h1, h2⟩ := (andThen_eq_next_iff ..).mp h
  obtain ⟨hw, rfl⟩ := (fetch64_eq_next_iff ..).mp h1
  exact ⟨w, hw, (Host.Outcome.next.inj h2).symm⟩

/-- MIX1 that goes on has read the partial word at `OFF`. -/
theorem fetchTail_then_next {s t : State} {f : Word × State → State}
    (h : (andThen (fetchTail s) fun x => .next (f x)) = .next t) :
    ∃ w, memRead s s.off (partialLength s.res) = .next w ∧ t = f (w, s.advance (partialLength s.res)) := by
  obtain ⟨⟨w, u⟩, h1, h2⟩ := (andThen_eq_next_iff ..).mp h
  obtain ⟨hw, rfl⟩ := (fetchTail_eq_next_iff ..).mp h1
  exact ⟨w, hw, (Host.Outcome.next.inj h2).symm⟩

end Sys2Proof.Machine
end

