-- ==== Sys2Proof/Laws/PerInstr.lean ====
section
/-! SUPPORT. A statement made of every instruction as syntax: its word in its format is read by its own row of the opcode
table and by no other row of that format (30_encoding R97). -/

namespace Sys2Proof.Laws

/-- The rows of a word's format that match it, by their instruction. -/
def matchingRows : Encoding → List Instr
  | .phase code => (phaseRows.filter (rowMatches code)).map OpcodeRow.instr
  | .host command => (hostRows.filter (rowMatches command)).map OpcodeRow.instr

/-- The word of an instruction matches its own row and no other. -/
def OneRow.Statement (i : Instr) : Prop := i.wellFormed = true ∧ matchingRows (encode i) = [i]

theorem OneRow.init : OneRow.Statement .init := by unfold OneRow.Statement; decide
theorem OneRow.block : OneRow.Statement .block := by unfold OneRow.Statement; decide
theorem OneRow.squash : OneRow.Statement .squash := by unfold OneRow.Statement; decide
theorem OneRow.dispatch : OneRow.Statement .dispatch := by unfold OneRow.Statement; decide
theorem OneRow.mix4 : OneRow.Statement .mix4 := by unfold OneRow.Statement; decide
theorem OneRow.mix3 : OneRow.Statement .mix3 := by unfold OneRow.Statement; decide
theorem OneRow.mix2 : OneRow.Statement .mix2 := by unfold OneRow.Statement; decide
theorem OneRow.mix1 : OneRow.Statement .mix1 := by unfold OneRow.Statement; decide
theorem OneRow.final : OneRow.Statement .final := by unfold OneRow.Statement; decide
theorem OneRow.reset : OneRow.Statement .reset := by unfold OneRow.Statement; decide
theorem OneRow.start : OneRow.Statement .start := by unfold OneRow.Statement; decide

end Sys2Proof.Laws
end

