-- ==== Sys2Proof/Laws/Step.lean ====
section
/-! SUPPORT. Everything one step can do, said once. -/

namespace Sys2Proof.Machine

/-- What the engine's turn can give. -/
theorem fetchEngine_cases (s : State) :
    (∃ i, decode (.phase s.ph) = .instr i ∧ fetchEngine s = .run i s) ∨
    ((s.ph = Phase.idle.code ∨ s.ph = Phase.done.code) ∧ fetchEngine s = .settle s) ∨
    (11 ≤ s.ph.toNat ∧ fetchEngine s = .stop (.reservedPhase s.ph)) := by
  have key : ∀ c : BitVec 4, (∃ i, decode (.phase c) = .instr i) ∨
      ((c = Phase.idle.code ∨ c = Phase.done.code) ∧ decode (.phase c) = .quiescent) ∨
      (11 ≤ c.toNat ∧ decode (.phase c) = .reserved c) := by
    intro c
    have h : ∀ c : BitVec 4, (decode (.phase c)).instr?.isSome = true ∨
        ((c = Phase.idle.code ∨ c = Phase.done.code) ∧ decode (.phase c) = .quiescent) ∨
        (11 ≤ c.toNat ∧ decode (.phase c) = .reserved c) := by decide
    rcases h c with h | h
    · left
      cases hd : decode (.phase c) with
      | instr i => exact ⟨i, rfl⟩
      | quiescent => rw [hd] at h; cases h
      | noCommand => rw [hd] at h; cases h
      | reserved k => rw [hd] at h; cases h
    · exact .inr h
  unfold fetchEngine
  rcases key s.ph with ⟨i, h⟩ | ⟨hp, h⟩ | ⟨hp, h⟩ <;> rw [h]
  · exact .inl ⟨i, rfl, rfl⟩
  · exact .inr (.inl ⟨hp, rfl⟩)
  · exact .inr (.inr ⟨hp, rfl⟩)

/-- A change of the buffer that goes on leaves the bytes of a running invocation alone. -/
theorem changeBuffer_settle {s t : State} {m : Memory} (h : changeBuffer s m = .settle t) :
    t = s.setBuf m ∧ (s.busy = true → Memory.agreeBelow s.buf m s.lenq.toNat = true) := by
  unfold changeBuffer at h
  split at h
  · cases h
  · rename_i hc
    refine ⟨(Fetched.settle.inj h).symm, fun hb => ?_⟩
    simpa [hb] using hc

/-- A change of the buffer runs no instruction. -/
theorem changeBuffer_ne_run (s : State) (m : Memory) (i : Instr) (t : State) : changeBuffer s m ≠ .run i t := by
  unfold changeBuffer
  split <;> exact fun h => by cases h

/-- The engine's turn is a step of `fetchEngine` on the state without the schedule's next move. -/
theorem fetch_of_engineTurn {s : State} (h : s.EngineTurn) : fetch s = fetchEngine s.popMove := by
  unfold fetch State.popMove
  rcases h with h | h
  · simp only [h, List.tail_nil]
    rw [← h, State.setSchedule_self]
  · match hs : s.schedule, h with
    | .engine :: q, _ => rfl

/-- ONE STEP. A next state comes from an operation of the engine, from the engine's turn in IDLE or DONE, from a command of
the host, from a host step with no command, or from a host step on the buffer. -/
theorem step_cases {s t : State} (h : step s = .next t) :
    (∃ i, s.EngineTurn ∧ decode (.phase s.ph) = .instr i ∧ exec i s.popMove = .next t) ∨
    (s.EngineTurn ∧ (s.ph = Phase.idle.code ∨ s.ph = Phase.done.code) ∧ t = s.popMove) ∨
    (∃ p q i, s.schedule = .host p :: q ∧ decode (.host (hostCommand p)) = .instr i ∧
      exec i ((s.setSchedule q).drive p) = .next t) ∨
    (∃ p q, s.schedule = .host p :: q ∧ decode (.host (hostCommand p)) = .noCommand ∧ t = (s.setSchedule q).drive p) ∨
    (∃ mv q m, s.schedule = mv :: q ∧ mv ≠ .engine ∧ (∀ p, mv ≠ .host p) ∧ (Memory.wf s.buf → Memory.wf m) ∧
      (s.busy = true → Memory.agreeBelow s.buf m s.lenq.toNat = true) ∧ t = (s.setSchedule q).setBuf m) := by
  have engine : s.EngineTurn →
      (∃ i, s.EngineTurn ∧ decode (.phase s.ph) = .instr i ∧ exec i s.popMove = .next t) ∨
      (s.EngineTurn ∧ (s.ph = Phase.idle.code ∨ s.ph = Phase.done.code) ∧ t = s.popMove) := by
    intro ht
    unfold step at h
    rw [fetch_of_engineTurn ht] at h
    rcases fetchEngine_cases s.popMove with ⟨i, hd, hf⟩ | ⟨hp, hf⟩ | ⟨_, hf⟩ <;> rw [hf] at h
    · exact .inl ⟨i, ht, hd, h⟩
    · exact .inr ⟨ht, hp, (Host.Outcome.next.inj h).symm⟩
    · cases h
  match hs : s.schedule with
  | [] => exact (engine (.inl hs)).imp_right .inl
  | .engine :: q => exact (engine (.inr (by rw [hs]; rfl))).imp_right .inl
  | .host p :: q =>
    refine .inr (.inr ?_)
    simp only [step, fetch, hs, fetchHost] at h
    have hd : ∀ c : BitVec 2, (decode (.host c)).instr?.isSome = true ∨ decode (.host c) = .noCommand := by decide
    match hc : decode (.host (hostCommand p)) with
    | .instr i => rw [hc] at h; exact .inl ⟨p, q, i, rfl, hc, h⟩
    | .noCommand => rw [hc] at h; exact .inr (.inl ⟨p, q, rfl, hc, (Host.Outcome.next.inj h).symm⟩)
    | .quiescent => exact absurd (hd (hostCommand p)) (by rw [hc]; decide)
    | .reserved k => exact absurd (hd (hostCommand p)) (by rw [hc]; simp [Decoded.instr?])
  | .place data :: q =>
    refine .inr (.inr (.inr (.inr ⟨.place data, q, Memory.ofBytes data, rfl, by simp, by simp, ?_⟩)))
    simp only [step, fetch, hs, placeInput] at h
    split_ifs at h with hl
    · cases hc : changeBuffer (s.setSchedule q) (Memory.ofBytes data) with
      | run i u => exact absurd hc (changeBuffer_ne_run _ _ _ _)
      | stop r => rw [hc] at h; cases h
      | settle u =>
        rw [hc] at h
        obtain ⟨hu, hb⟩ := changeBuffer_settle hc
        exact ⟨fun _ => Memory.ofBytes_wf hl, hb, by rw [← hu]; exact (Host.Outcome.next.inj h).symm⟩
  | .write offset data :: q =>
    refine .inr (.inr (.inr (.inr
      ⟨.write offset data, q, Memory.writeBytes s.buf offset.toNat data, rfl, by simp, by simp, ?_⟩)))
    simp only [step, fetch, hs, writeInput] at h
    split_ifs at h with hl
    · cases hc : changeBuffer (s.setSchedule q) (Memory.writeBytes (s.setSchedule q).buf offset.toNat data) with
      | run i u => exact absurd hc (changeBuffer_ne_run _ _ _ _)
      | stop r => rw [hc] at h; cases h
      | settle u =>
        rw [hc] at h
        obtain ⟨hu, hb⟩ := changeBuffer_settle hc
        exact ⟨fun hw => Memory.writeBytes_wf hw hl, hb, by rw [← State.setSchedule_buf s q, ← hu]; exact (Host.Outcome.next.inj h).symm⟩

end Sys2Proof.Machine
end

