-- ==== Sys2Proof/Tests/Slice0.lean ====
section
/-! SUPPORT. The model's own tests. Expected values come from the worked examples and the test vectors of spec/, cited at
each test. The witnesses show that the hypotheses of the statements are met by concrete states. -/

namespace Sys2Proof.Tests

open Sys2Proof.Machine

/-! ### Helpers -/

/-- The next state, where there is one. -/
def nextOf : Host.Outcome State Fault Refusal → Option State
  | .next s => some s
  | .fault _ => none
  | .refused _ => none

/-- The 64-byte pattern (95_test_vectors, 93_implementation_defined G4). -/
def pattern : List Byte :=
  [0x00, 0x01, 0x02, 0x03, 0x04, 0x05, 0x06, 0x07, 0xFF, 0x7F, 0x3F, 0x1F, 0x0F, 0x08, 0x10, 0x20] ++
  [0x40, 0x80, 0xFE, 0xFC, 0xF8, 0xF0, 0xE0, 0xC0, 0xFD, 0xFB, 0xF7, 0xEF, 0xDF, 0xBF, 0x55, 0xAA] ++
  [0x0B, 0x11, 0x13, 0x17, 0x1D, 0x25, 0x2A, 0x2B, 0x61, 0x62, 0x63, 0x64, 0x65, 0x66, 0x67, 0x68] ++
  [0x69, 0x6A, 0x6B, 0x6C, 0x6D, 0x6E, 0x6F, 0x70, 0x71, 0x72, 0x73, 0x74, 0x75, 0x76, 0x77, 0x78]

/-- The bytes of "test" (95_test_vectors V3). -/
def testBytes : List Byte := [0x74, 0x65, 0x73, 0x74]

/-- A state in a phase, with a buffer and a latched length. -/
def at_ (p : Phase) (data : List Byte) (len : Word) : State :=
  { State.reset with ph := p.code, buf := Memory.ofBytes data, lenq := len }

/-! ### Well-formedness: an ill-formed term for each check -/

theorem test_phase_code_11_ill_formed : phaseCodeWellFormed 11 = false ∧ phaseCodeWellFormed 10 = true := by decide
theorem test_request_of_0_ill_formed : requestWellFormed 0 = false ∧ requestWellFormed 9 = false := by decide
theorem test_request_of_8_well_formed : requestWellFormed 8 = true ∧ requestWellFormed 1 = true := by decide
theorem test_rotation_by_64_ill_formed : rotationWellFormed 64 = false ∧ rotationWellFormed 41 = true := by decide
theorem test_input_of_2_64_ill_formed : inputLengthWellFormed (2 ^ 64) = false := by decide
theorem test_instr_well_formed : Instr.start.wellFormed = true := by decide

/-! ### Decoding: words written out from 30_encoding R82 and R84 -/

theorem test_decode_init : decode (.phase 0b0001) = .instr .init := by decide
theorem test_decode_block : decode (.phase 0b0010) = .instr .block := by decide
theorem test_decode_squash : decode (.phase 0b0011) = .instr .squash := by decide
theorem test_decode_dispatch : decode (.phase 0b0100) = .instr .dispatch := by decide
theorem test_decode_mix4 : decode (.phase 0b0101) = .instr .mix4 := by decide
theorem test_decode_mix3 : decode (.phase 0b0110) = .instr .mix3 := by decide
theorem test_decode_mix2 : decode (.phase 0b0111) = .instr .mix2 := by decide
theorem test_decode_mix1 : decode (.phase 0b1000) = .instr .mix1 := by decide
theorem test_decode_final : decode (.phase 0b1001) = .instr .final := by decide
theorem test_decode_reset : decode (.host 0b10) = .instr .reset ∧ decode (.host 0b11) = .instr .reset := by decide
theorem test_decode_start : decode (.host 0b01) = .instr .start := by decide
theorem test_decode_reserved : decode (.phase 0b1011) = .reserved 0b1011 := by decide

/-! ### Operations, one step each -/

/-- 41_init R121, worked example. -/
theorem test_init_33 :
    ((nextOf (exec .init (at_ .init [] 33))).map fun t => (t.a, t.b, t.c, t.d, t.ph)) =
      some (0, 0x21, 0x000041FFFFFFFFFF, 0xFFFFFFFFFFFFFFDE, 0b0010) := by decide

/-- 41_init R122, row 3: 32 takes the short path. -/
theorem test_init_32 :
    ((nextOf (exec .init (at_ .init [] 32))).map fun t => (t.b, t.res, t.ph)) = some (0x20, 32, 0b0100) := by decide

/-- The first block of program P3 (95_test_vectors). -/
def firstBlock : State :=
  { at_ .block pattern 64 with b := 0x40, c := 0x00007FFFFFFFFFFF, d := 0xFFFFFFFFFFFFFFBF }

/-- 42_block_loop R130, worked example. -/
theorem test_block_first :
    ((nextOf (exec .block firstBlock)).map fun t => (t.a, t.b, t.c, t.d, t.off, t.ph)) =
      some (0x9DBFC6F2DF5C85F1, 0x8E7BE4F9916CA5ED, 0x8302FDFE7EFF7FFC, 0xC3830200037FBFDF, 32, 0b0010) := by decide

/-- 95_test_vectors 2.3: with `LENQ = 63` the loop ends after one block. -/
theorem test_block_last :
    ((nextOf (exec .block { firstBlock with lenq := 63 })).map fun t => (t.off, t.ph)) = some (32, 0b0011) := by decide

/-- 43_squash R140, worked example. -/
theorem test_squash :
    ((nextOf (exec .squash { at_ .squash [] 64 with
        a := 0x5BDBAA3E70C686DA, b := 0xFB5F1AE8DBF9A055, c := 0xB1D0A880161A747A, d := 0xE78E70831471FC59 })).map
      fun t => (t.a, t.b, t.res, t.ph)) = some (0x137C26E4BEDDD7D8, 0x180429A43ED8F6D9, 0, 0b0100) := by decide

/-- 95_test_vectors 2.4, row 2: `RES = 95 mod 32`. -/
theorem test_squash_residual : ((nextOf (exec .squash (at_ .squash [] 95))).map fun t => t.res) = some 31 := by decide

/-- 44_tail_dispatch R150, worked example and the edge 24|25. -/
theorem test_dispatch_bands :
    ([0, 1, 8, 9, 16, 17, 24, 25, 32].map fun r =>
      (nextOf (exec .dispatch { State.reset with res := r })).map fun t => t.ph) =
      [some 0b1001, some 0b1000, some 0b1000, some 0b0111, some 0b0111, some 0b0110, some 0b0110, some 0b0101,
        some 0b0101] := by decide

/-- 44_tail_dispatch R154, worked example. -/
theorem test_mix4 :
    ((nextOf (exec .mix4 { at_ .mix4 pattern 32 with b := 0x20, res := 32 })).map fun t => (t.a, t.b, t.off, t.ph)) =
      some (0x53384508F0B62060, 0x0447DC152845DDC3, 8, 0b0110) := by decide

/-- 44_tail_dispatch R155, worked example. -/
theorem test_mix3 :
    ((nextOf (exec .mix3 { at_ .mix3 pattern 24 with b := 0x18, res := 24 })).map fun t => (t.a, t.b, t.off, t.ph)) =
      some (0x0533BE1C63D0E091, 0xAF01F18DEC777118, 8, 0b0111) := by decide

/-- 44_tail_dispatch R156, worked example. -/
theorem test_mix2 :
    ((nextOf (exec .mix2 { at_ .mix2 (List.replicate 16 0x30) 16 with b := 0x10, res := 16 })).map
      fun t => (t.a, t.b, t.off, t.ph)) = some (0x6630F11C8BADA2C0, 0x281529BC8A0D814C, 8, 0b1000) := by decide

/-- The state before MIX1 of program P1 (95_test_vectors). -/
def beforeMix1 : State := { at_ .mix1 testBytes 4 with b := 4, res := 4 }

/-- A state before MIX1 with `RES = 8`, and one with `RES = 32` and 24 bytes consumed: `k = 8` in both. -/
def beforeMix1Full : State := { at_ .mix1 pattern 8 with res := 8 }
def beforeMix1Top : State := { at_ .mix1 pattern 32 with res := 32, off := 24 }

/-- 44_tail_dispatch R157, worked example. -/
theorem test_mix1 :
    ((nextOf (exec .mix1 beforeMix1)).map fun t => (t.a, t.b, t.off, t.ph)) =
      some (0x000000003B413812, 0x1574F21D3118E2D0, 4, 0b1001) := by decide

/-- 95_test_vectors P2, step 4: `RES = 16` gives `k = 8`. -/
theorem test_mix1_full_word :
    ((nextOf (exec .mix1 { at_ .mix1 (List.replicate 16 0x30) 16 with
        a := 0x6630F11C8BADA2C0, b := 0x281529BC8A0D814C, off := 8, res := 16 })).map fun t => (t.a, t.b, t.off)) =
      some (0xB2B5CE621A92878D, 0x57AE87A8D89F863C, 16) := by decide

/-- 45_finalization R170, worked example: source vector V3. -/
theorem test_final :
    ((nextOf (exec .final { at_ .final testBytes 4 with a := 0x3B413812, b := 0x1574F21D3118E2D0 })).map
      fun t => (t.digest, t.ph, t.digestBytesOut)) =
      some (0xA0A7281AA08ADD7B, 0b1010, some [0xA0, 0xA7, 0x28, 0x1A, 0xA0, 0x8A, 0xDD, 0x7B]) := by decide

/-- 70_reset_and_hazards R230, worked example. -/
theorem test_reset :
    ((nextOf (exec .reset firstBlock)).map fun t => (t.ph, t.done, t.busy)) = some (0b0000, false, false) := by decide

/-- The pins of a START with a seed and a length. -/
def startPins (seed len : Word) : Ports := { reset := false, start := true, seed := seed, len := len }

/-- 95_test_vectors 2.8, row 1, as a host step from reset. -/
theorem test_start_from_idle :
    ((nextOf (step { State.reset with schedule := [.host (startPins 5 4)] })).map fun t => (t.ph, t.seedq, t.lenq)) =
      some (0b0001, 5, 4) := by decide

/-- 95_test_vectors 2.8, row 3: START while busy changes nothing. -/
theorem test_start_while_busy : exec .start firstBlock = .next firstBlock := rfl

/-- 95_test_vectors 2.8, row 5: RESET wins over START. -/
theorem test_reset_wins :
    ((nextOf (step { at_ .done [] 0 with schedule := [.host { startPins 0 0 with reset := true }] })).map
      fun t => t.ph) = some 0b0000 := by decide

/-! ### The primitives -/

/-- 40_arithmetic R103, examples. -/
theorem test_rotr :
    rotr 0x0123456789ABCDEF 19 = 0x79BDE02468ACF135 ∧ rotr 0x0123456789ABCDEF 57 = 0x91A2B3C4D5E6F780 := by decide

/-- 40_arithmetic R105 and R107, examples. -/
theorem test_mulhi :
    mulhi 0x0123456789ABCDEF 0xFEDCBA9876543210 = 0x0121FA00AD77D742 ∧
    mulhiByHalves 0x0123456789ABCDEF 0xFEDCBA9876543210 = 0x0121FA00AD77D742 ∧
    mulloByHalves 0x0123456789ABCDEF 0xFEDCBA9876543210 = 0x2236D88FE5618CF0 := by decide

/-- 44_tail_dispatch R153, corner cases. -/
theorem test_partial_words :
    leWord [0x71, 0x72, 0x73] = 0x0000000000737271 ∧
    leWord [0x71, 0x72, 0x73, 0x74, 0x75, 0x76, 0x77, 0x78] = 0x7877767574737271 := by decide

/-- 45_finalization R174 on source vectors V1 to V4 (95_test_vectors). -/
theorem test_whole_function :
    digestOf Config.prime [] 0 = 0 ∧ digestOf Config.prime [] 0xFFFFFFFFFFFFFFFF = 0x772C7311BE32FF42 ∧
    digestOf Config.prime testBytes 0 = 0xA0A7281AA08ADD7B ∧ digestOf Config.prime [0x30] 0 = 0x4B0B7D3CDE9FBCE6 := by
  decide

/-- 45_finalization R175, examples. -/
theorem test_operation_counts :
    [0, 4, 32, 33, 64, 63].map operationCount = [3, 4, 7, 6, 6, 9] := by decide

/-- `withFetchWord` on BLOCK right after reset: the very next step runs it. -/
theorem test_with_fetch_word_block :
    ((nextOf (step (State.reset.withFetchWord 4 2))).map fun t => (t.off, t.ph)) = some (32, 0b0011) := by decide

/-! ### Witnesses: the hypotheses of the statements, met by concrete states

Each theorem is named after the statement; where a statement has several clauses, the witness meets each of them. -/

/-- RotateRightMovesBits: the first and the last amount. -/
theorem witness_rotation_amounts : 19 ∈ [19, 23, 38, 41, 56, 57] ∧ 57 ∈ [19, 23, 38, 41, 56, 57] := by decide

/-- LowProductModulo2To64: an odd word, and its product. -/
theorem witness_low_product_odd :
    Config.prime[0].toNat % 2 = 1 ∧ mullo 3 Config.prime[0] = 0xC5CD3D288A586001 := by decide

/-- HighProductIsUnsigned: `1 ≤ y` at its least value. -/
theorem witness_high_product : 1 ≤ (1 : Word).toNat ∧ mulhi 0xFFFFFFFFFFFFFFFF 1 = 0 := by decide

/-- LoopTestDoesNotWrap: both sides of the boundary, and `OFF = LENQ`. -/
theorem witness_loop_test :
    (32 : Word).toNat ≤ (64 : Word).toNat ∧ moreBlocks 64 32 = true ∧ moreBlocks 63 32 = false ∧
    moreBlocks 32 32 = false := by decide

/-- AccumulatorUpdatesAreBijections and the two mixup statements: two different accumulators. -/
theorem witness_two_accumulators : Acc.a ≠ Acc.b := by decide

/-- DecodeEncodeAgree: a well-formed instruction, its word, and RESET's other word. -/
theorem witness_encode :
    Instr.final.wellFormed = true ∧ decode (encode .final) = .instr .final ∧ decode (.host 0b11) = .instr .reset := by
  decide

/-- PhaseCodesDecode: the reserved codes at both ends. -/
theorem witness_reserved_codes :
    11 ≤ (0b1011 : BitVec 4).toNat ∧ decode (.phase 0b1011) = .reserved 0b1011 ∧
    11 ≤ (0b1111 : BitVec 4).toNat ∧ decode (.phase 0b1111) = .reserved 0b1111 := by decide

/-- HostCommandsDecode: pins of each clause, and a host step with no command. -/
theorem witness_host_commands :
    ({ startPins 0 0 with reset := true } : Ports).reset = true ∧
    ((startPins 0 0).reset = false ∧ (startPins 0 0).start = true) ∧
    (({ startPins 0 0 with start := false } : Ports).reset = false ∧
      ({ startPins 0 0 with start := false } : Ports).start = false) ∧
    ({ State.reset with schedule := [.host { startPins 0 0 with start := false }] } : State).schedule =
      .host { startPins 0 0 with start := false } :: [] := by decide

/-- ReservedPhaseCodesRefused: the engine's turn with a reserved code, with the schedule empty and not; and a next state. -/
theorem witness_reserved_phase :
    ({ State.reset with ph := 11 } : State).EngineTurn ∧ 11 ≤ ({ State.reset with ph := 11 } : State).ph.toNat ∧
    step { State.reset with ph := 11 } = .refused (.reservedPhase 11) ∧
    ({ State.reset with ph := 15, schedule := [.engine] } : State).EngineTurn ∧
    step { State.reset with ph := 15, schedule := [.engine] } = .refused (.reservedPhase 15) ∧
    (nextOf (exec .final State.reset)).isSome = true :=
  ⟨.inl rfl, by decide, rfl, .inr rfl, rfl, rfl⟩

/-- StepRunsTheOperationOfThePhase: the engine's turn in DISPATCH, with the schedule empty and with the engine named. -/
theorem witness_operation_of_the_phase :
    (at_ .dispatch [] 0).EngineTurn ∧ decode (.phase (at_ .dispatch [] 0).ph) = .instr .dispatch ∧
    ({ at_ .dispatch [] 0 with schedule := [.engine] } : State).EngineTurn :=
  ⟨.inl rfl, by decide, .inr rfl⟩

/-- StepRunsTheHostCommand, StartIgnoredWhileBusy: a host step with START, the engine busy. -/
theorem witness_host_step :
    ({ firstBlock with schedule := [.host (startPins 0 0)] } : State).schedule = .host (startPins 0 0) :: [] ∧
    decode (.host (hostCommand (startPins 0 0))) = .instr .start ∧ (startPins 0 0).reset = false ∧
    (startPins 0 0).start = true ∧ ({ firstBlock with schedule := [.host (startPins 0 0)] } : State).busy = true := by
  decide

/-- EngineHasNoStepInIdleAndDone: the engine's turn in IDLE and in DONE. -/
theorem witness_engine_at_rest :
    State.reset.EngineTurn ∧ State.reset.ph = 0b0000 ∧ (at_ .done [] 0).EngineTurn ∧
    (at_ .done [] 0).ph = 0b1010 :=
  ⟨.inl rfl, by decide, .inl rfl, by decide⟩

/-- WithFetchWordRunsTheWord: a word of each format; one state whose input is in place and one whose input is not. -/
theorem witness_with_fetch_word :
    decodeTableWord 4 5 = some .mix4 ∧ decodeTableWord 2 1 = some .start ∧
    inputServes (at_ .mix4 pattern 32) .mix4 = true ∧ inputServes State.reset .mix4 = false := by decide

/-- InitResult: 32, the last length of the short path, and 33 beyond it. -/
theorem witness_init :
    (32 : Word).toNat ≤ 32 ∧ ¬ 32 < (at_ .init [] 32).lenq.toNat ∧ 32 < (at_ .init [] 33).lenq.toNat := by decide

/-- BlockResult: the last block of an input of 64 bytes, its end at `LENQ`. -/
theorem witness_block :
    ({ firstBlock with off := 32 } : State).off.toNat + 32 ≤ ({ firstBlock with off := 32 } : State).lenq.toNat ∧
    Memory.readBytes ({ firstBlock with off := 32 } : State).buf ({ firstBlock with off := 32 } : State).off.toNat 32 =
      some (pattern.drop 32) := by decide

/-- DispatchByBand, DispatchByTailOperations: 32 and 33. -/
theorem witness_dispatch :
    ({ State.reset with res := 32 } : State).res.toNat ≤ 32 ∧ 32 < ({ State.reset with res := 33 } : State).res.toNat := by
  decide

/-- MixupAbsorbsAWord: a companion and a word whose sum is 0. -/
theorem witness_mixup_absorbs :
    Acc.a ≠ Acc.b ∧ ({ State.reset with b := 0xFFFFFFFFFFFFFFFF } : State).acc .b + 1 = 0 := by decide

/-- Mix4Result, Mix3Result, Mix2Result: a full word that ends at `LENQ`. -/
theorem witness_full_word :
    (at_ .mix4 pattern 8).off.toNat + 8 ≤ (at_ .mix4 pattern 8).lenq.toNat ∧
    Memory.readBytes (at_ .mix4 pattern 8).buf (at_ .mix4 pattern 8).off.toNat 8 = some (pattern.take 8) := by decide

/-- Mix1Result: `k = 4` at `RES = 4`, and `k = 8` at `RES = 8` and at `RES = 32`, the read ending at `LENQ`. -/
theorem witness_mix1 :
    (4 = if beforeMix1.res.toNat % 8 = 0 then 8 else beforeMix1.res.toNat % 8) ∧
    beforeMix1.off.toNat + 4 ≤ beforeMix1.lenq.toNat ∧
    Memory.readBytes beforeMix1.buf beforeMix1.off.toNat 4 = some testBytes ∧
    (8 = if beforeMix1Full.res.toNat % 8 = 0 then 8 else beforeMix1Full.res.toNat % 8) ∧
    beforeMix1Full.off.toNat + 8 ≤ beforeMix1Full.lenq.toNat ∧
    Memory.readBytes beforeMix1Full.buf beforeMix1Full.off.toNat 8 = some (pattern.take 8) ∧
    (8 = if beforeMix1Top.res.toNat % 8 = 0 then 8 else beforeMix1Top.res.toNat % 8) ∧
    beforeMix1Top.off.toNat + 8 ≤ beforeMix1Top.lenq.toNat ∧
    Memory.readBytes beforeMix1Top.buf beforeMix1Top.off.toNat 8 = some ((pattern.drop 24).take 8) := by decide

/-- StartResult: IDLE, DONE, and a busy phase. -/
theorem witness_start :
    State.reset.ph = 0b0000 ∧ (at_ .done [] 0).ph = 0b1010 ∧ ¬(firstBlock.ph = 0b0000 ∨ firstBlock.ph = 0b1010) := by
  decide

/-- PinsReadOnlyByStart: another instruction, and a START while busy. -/
theorem witness_pins : Instr.init ≠ .start ∧ firstBlock.busy = true := by decide

/-- ExecCompletesExactlyWhenServed: a request answered, one outside the input, one of a byte not placed. -/
theorem witness_served :
    (∀ r ∈ bufferRequests beforeMix1 .mix1, r.1.toNat + r.2 ≤ beforeMix1.lenq.toNat ∧
      ∀ j < r.2, (Memory.byteAt beforeMix1.buf (r.1.toNat + j)).isSome = true) ∧
    exec .mix4 State.reset = .fault .outOfBounds ∧
    exec .mix4 (at_ .mix4 testBytes 8) = .refused .unfilledByte :=
  ⟨by decide, rfl, rfl⟩

/-- EngineOperationFrame, PrimesNeverMutated: an operation and a step that answer a next state. -/
theorem witness_next_states :
    (∃ t, exec .block firstBlock = .next t) ∧ (∃ t, step firstBlock = .next t) := ⟨⟨_, rfl⟩, ⟨_, rfl⟩⟩

/-- FullWordIsLittleEndian: eight bytes that end at `LENQ`. -/
theorem witness_read_full_word :
    (0 : Word).toNat + 8 ≤ (at_ .mix4 pattern 8).lenq.toNat ∧
    ∀ j < 8, Memory.byteAt (at_ .mix4 pattern 8).buf ((0 : Word).toNat + j) =
      ([0x00, 0x01, 0x02, 0x03, 0x04, 0x05, 0x06, 0x07] : List Byte)[j]? := by decide

/-- PartialWordZeroExtends: 1 byte and 8 bytes. -/
theorem witness_read_partial_word :
    (1 ≤ (testBytes.take 1).length ∧ (3 : Word).toNat + 1 ≤ beforeMix1.lenq.toNat ∧
      ∀ j < 1, Memory.byteAt beforeMix1.buf ((3 : Word).toNat + j) = ([0x74] : List Byte)[j]?) ∧
    ((pattern.take 8).length ≤ 8 ∧ (0 : Word).toNat + 8 ≤ (at_ .mix1 pattern 8).lenq.toNat ∧
      ∀ j < 8, Memory.byteAt (at_ .mix1 pattern 8).buf ((0 : Word).toNat + j) = (pattern.take 8)[j]?) := by decide

/-- DigestBytesAreBigEndian: an engine in DONE, whose output answers. -/
theorem witness_digest_bytes :
    (at_ .done [] 0).done = true ∧ (at_ .done [] 0).digestBytesOut = some (List.replicate 8 0) := by decide

/-- MemWriteReadsBack: 0 bytes and 8 bytes. -/
theorem witness_mem_write :
    0 ≤ 8 ∧ Memory.readBytes (Memory.memWrite [] 5 8 0x0807060504030201) 5 8 = some [1, 2, 3, 4, 5, 6, 7, 8] := by decide

/-- A buffer that holds "test" below `LENQ = 4`, and the host about to place an input. -/
def placing (p : Phase) (data : List Byte) : State := { at_ p testBytes 4 with schedule := [.place data] }

/-- HostPlacesTheInput: an input placed while not busy; one placed while busy whose bytes below `LENQ` are those there; and
one of 2^64 bytes. -/
theorem witness_place :
    Memory.wf (placing .idle testBytes).buf ∧ (placing .idle testBytes).schedule = .place testBytes :: [] ∧
    testBytes.length < 2 ^ 64 ∧ (placing .idle testBytes).busy = false ∧
    Memory.wf (placing .block (testBytes ++ [0x21])).buf ∧ (placing .block (testBytes ++ [0x21])).busy = true ∧
    (∀ j < (placing .block (testBytes ++ [0x21])).lenq.toNat,
      Memory.byteAt (placing .block (testBytes ++ [0x21])).buf j = (testBytes ++ [0x21])[j]?) ∧
    2 ^ 64 ≤ (List.replicate (2 ^ 64) (0 : Byte)).length :=
  ⟨by decide, rfl, by decide, by decide, by decide, by decide, by decide, by rw [List.length_replicate]⟩

/-- BufferChangeWhileBusyRefused: a whole input placed while busy that is one byte shorter, so that offset 3 changes; and the
step, its refusal. -/
theorem witness_place_while_busy :
    Memory.wf (placing .block (testBytes.take 3)).buf ∧ (testBytes.take 3).length < 2 ^ 64 ∧
    (placing .block (testBytes.take 3)).busy = true ∧
    (∃ j < (placing .block (testBytes.take 3)).lenq.toNat,
      Memory.byteAt (placing .block (testBytes.take 3)).buf j ≠ (testBytes.take 3)[j]?) ∧
    step (placing .block (testBytes.take 3)) = .refused .bufferChangedWhileBusy :=
  ⟨by decide, by decide, by decide, by decide, rfl⟩

/-- BufferChangeWhileBusyRefused: a write of two bytes from the last offset on; and one byte there, which fits. -/
theorem witness_write_beyond :
    2 ^ 64 < (0xFFFFFFFFFFFFFFFF : Word).toNat + [(0 : Byte), 0].length ∧
    (0xFFFFFFFFFFFFFFFF : Word).toNat + [(0 : Byte)].length ≤ 2 ^ 64 ∧
    step { State.reset with schedule := [.write 0xFFFFFFFFFFFFFFFF [0, 0]] } = .refused .inputTooLong :=
  ⟨by decide, by decide, rfl⟩

/-- BufferChangeWhileBusyRefused: while busy a byte below `LENQ` that changes, a byte at `LENQ` that may, and a write of what
is there; and an engine not busy. -/
theorem witness_buffer_change :
    Memory.wf (at_ .block testBytes 4).buf ∧ (3 : Word).toNat + [(0x00 : Byte)].length ≤ 2 ^ 64 ∧
    ((at_ .block testBytes 4).busy = true ∧ ∃ j < [(0x00 : Byte)].length,
      (3 : Word).toNat + j < (at_ .block testBytes 4).lenq.toNat ∧
        Memory.byteAt (at_ .block testBytes 4).buf ((3 : Word).toNat + j) ≠ [(0x00 : Byte)][j]?) ∧
    (∀ j < [(0x00 : Byte)].length, (4 : Word).toNat + j < (at_ .block testBytes 4).lenq.toNat →
      Memory.byteAt (at_ .block testBytes 4).buf ((4 : Word).toNat + j) = [(0x00 : Byte)][j]?) ∧
    (∀ j < [(0x74 : Byte)].length, (3 : Word).toNat + j < (at_ .block testBytes 4).lenq.toNat →
      Memory.byteAt (at_ .block testBytes 4).buf ((3 : Word).toNat + j) = [(0x74 : Byte)][j]?) ∧
    (at_ .done testBytes 4).busy = false := by decide

/-- The same, as steps: the refusal and the write at `LENQ`. -/
theorem witness_buffer_change_steps :
    step { at_ .block testBytes 4 with schedule := [.write 3 [0x00]] } = .refused .bufferChangedWhileBusy ∧
    ∃ t, step { at_ .block testBytes 4 with schedule := [.write 4 [0x00]] } = .next t := ⟨rfl, ⟨_, rfl⟩⟩

/-- StatusOutputsFollowThePhase, ResetState: RESET answers a next state. -/
theorem witness_reset : ∃ t, exec .reset firstBlock = .next t := ⟨_, rfl⟩

/-- DigestReadOnlyWhileDone: a state in DONE and one that is not. -/
theorem witness_digest_port : (at_ .done [] 0).ph = 0b1010 ∧ firstBlock.ph ≠ 0b1010 := by decide

/-- DoneHoldsTheDigest: an engine step, a START and a RESET from DONE. -/
theorem witness_done :
    (at_ .done [] 0).ph = 0b1010 ∧ (∃ t, step (at_ .done [] 0) = .next t) ∧
    (∃ t, step { at_ .done [] 0 with schedule := [.host (startPins 0 0)] } = .next t ∧ t.ph = 0b0001) ∧
    (∃ t, step { at_ .done [] 0 with schedule := [.host { startPins 0 0 with reset := true }] } = .next t ∧
      t.ph = 0b0000) :=
  ⟨by decide, ⟨_, rfl⟩, ⟨_, rfl, rfl⟩, ⟨_, rfl, rfl⟩⟩

theorem firstBlock_inv : Inv firstBlock :=
  ⟨by decide, .block, by decide, by refine ⟨?_, ?_, ?_⟩ <;> decide⟩

theorem beforeMix1_inv : Inv beforeMix1 :=
  ⟨by decide, .mix1, by decide, by refine ⟨?_, ?_, ?_, ?_, ?_⟩ <;> first | decide | rfl⟩

/-- StepKeepsTheInvariant: a busy state that has the invariant, and its step. -/
theorem witness_invariant : Inv firstBlock ∧ ∃ t, step firstBlock = .next t := ⟨firstBlock_inv, ⟨_, rfl⟩⟩

/-- ReadsStayInsideTheInput: an operation with four requests and one with a partial word. -/
theorem witness_reads_stay :
    Inv firstBlock ∧ decode (.phase firstBlock.ph) = .instr .block ∧ (bufferRequests firstBlock .block).length = 4 ∧
    Inv beforeMix1 ∧ decode (.phase beforeMix1.ph) = .instr .mix1 ∧ bufferRequests beforeMix1 .mix1 = [(0, 4)] :=
  ⟨firstBlock_inv, by decide, by decide, beforeMix1_inv, by decide, by decide⟩

/-- ReadsTileTheInput: INIT and BLOCK complete; the invariant in DISPATCH and in DONE. -/
theorem witness_reads_tile :
    (∃ t, exec .init (at_ .init testBytes 4) = .next t) ∧ (∃ t, exec .block firstBlock = .next t) ∧
    Inv { at_ .dispatch testBytes 4 with res := 4 } ∧ Inv { at_ .done testBytes 4 with off := 4 } :=
  ⟨⟨_, rfl⟩, ⟨_, rfl⟩, ⟨by decide, .dispatch, by decide, by refine ⟨?_, ?_, ?_⟩ <;> first | decide | rfl⟩,
    ⟨by decide, .done, by decide, rfl⟩⟩

theorem beforeMix1_filled : beforeMix1.Filled := by
  have h : ∀ i < 4, (Memory.byteAt beforeMix1.buf i).isSome = true := by decide
  exact h

/-- BusyEngineAlwaysSteps. -/
theorem witness_busy_engine :
    Inv beforeMix1 ∧ beforeMix1.busy = true ∧ beforeMix1.Filled ∧ beforeMix1.EngineTurn :=
  ⟨beforeMix1_inv, by decide, beforeMix1_filled, .inl rfl⟩

/-- PhaseFollowsItsEdges: an engine step in a busy phase and in DONE, and a host step. -/
theorem witness_phase_edges :
    Phase.ofCode firstBlock.ph = some .block ∧ firstBlock.EngineTurn ∧ (∃ t, step firstBlock = .next t) ∧
    Phase.ofCode (at_ .done [] 0).ph = some .done ∧ (at_ .done [] 0).EngineTurn ∧
    ¬({ State.reset with schedule := [.host (startPins 0 0)] } : State).EngineTurn ∧
    ∃ t, step { State.reset with schedule := [.host (startPins 0 0)] } = .next t :=
  ⟨by decide, .inl rfl, ⟨_, rfl⟩, by decide, .inl rfl, by simp [State.EngineTurn], ⟨_, rfl⟩⟩

/-- LoopRunsLengthDiv32Blocks: two blocks to run. -/
theorem witness_loop :
    firstBlock.ph = 0b0010 ∧ firstBlock.off = 0 ∧ 32 < firstBlock.lenq.toNat ∧ firstBlock.Filled ∧
    firstBlock.schedule = [] ∧ firstBlock.lenq.toNat / 32 = 2 := by
  have h : ∀ i < 64, (Memory.byteAt firstBlock.buf i).isSome = true := by decide
  exact ⟨rfl, rfl, by decide, h, rfl, by decide⟩

theorem test_bytes_held : Memory.holds (Memory.ofBytes testBytes) testBytes := by
  have h : ∀ i < 4, Memory.byteAt (Memory.ofBytes testBytes) i = testBytes[i]? := by decide
  exact h

/-- 64 bytes of the pattern at offsets 0 to 63, and more beyond them. -/
theorem pattern_held : Memory.holds (Memory.ofBytes (pattern ++ [0x99])) pattern := by
  have h : ∀ i < 64, Memory.byteAt (Memory.ofBytes (pattern ++ [0x99])) i = pattern[i]? := by decide
  exact h

/-- StartBeginsTheInvocation: the input placed, a START with its length on the pins. -/
theorem witness_start_begins :
    testBytes.length < 2 ^ 64 ∧
    ({ at_ .idle testBytes 0 with schedule := [.host (startPins 7 4)] } : State).busy = false ∧
    (startPins 7 4).reset = false ∧ (startPins 7 4).start = true ∧
    (startPins 7 4).len = BitVec.ofNat 64 testBytes.length ∧
    Memory.holds ({ at_ .idle testBytes 0 with schedule := [.host (startPins 7 4)] } : State).buf testBytes :=
  ⟨by decide, by decide, rfl, rfl, by decide, test_bytes_held⟩

/-- InvocationComputesHash, InvocationTakesOperationCount: an invocation on the short path, one on the long path, and one of
no bytes. -/
theorem witness_invokes :
    (at_ .init testBytes 4).Invokes testBytes 0 ∧ (at_ .init (pattern ++ [0x99]) 64).Invokes pattern 0 ∧
    (at_ .init [] 0).Invokes [] 0 :=
  ⟨⟨by decide, rfl, rfl, by decide, test_bytes_held, rfl⟩, ⟨by decide, rfl, rfl, by decide, pattern_held, rfl⟩,
    ⟨by decide, rfl, rfl, by decide, fun _ h => absurd h (Nat.not_lt_zero _), rfl⟩⟩

/-- NothingCarriesOver: two engines that differ in every other register. -/
theorem witness_carry_over :
    let s := at_ .init testBytes 4
    let s' : State := { s with a := 1, b := 2, c := 3, d := 4, off := 5, res := 6, digest := 7 }
    s.ph = 0b0001 ∧ s'.ph = 0b0001 ∧ s.schedule = [] ∧ s'.schedule = [] ∧ s.seedq = s'.seedq ∧ s.lenq = s'.lenq ∧
    s.prime = s'.prime ∧ s.buf = s'.buf ∧ s ≠ s' := by decide

end Sys2Proof.Tests
end

section
/-! The status outputs as functions of the phase register, and the state a RESET command leaves (10_state R30, R36;
70_reset_and_hazards R230). -/

namespace Sys2Proof.Machine.State

theorem done_eq_true_iff (s : State) : s.done = true ↔ s.ph = Phase.done.code := by
  simp only [State.done, decide_eq_true_eq]

theorem busy_eq_true_iff (s : State) : s.busy = true ↔ s.ph ≠ Phase.idle.code ∧ s.ph ≠ Phase.done.code := by
  simp only [State.busy, State.done, Bool.not_eq_true', Bool.or_eq_false_iff, decide_eq_false_iff_not]

theorem done_eq_false_of_idle {s : State} (h : s.ph = Phase.idle.code) : s.done = false := by
  rw [← Bool.not_eq_true, done_eq_true_iff, h]
  decide

theorem busy_eq_false_of_idle {s : State} (h : s.ph = Phase.idle.code) : s.busy = false := by
  rw [← Bool.not_eq_true, busy_eq_true_iff]
  exact fun hb => hb.1 h

theorem reset_ph : State.reset.ph = Phase.idle.code := rfl

theorem reset_prime : State.reset.prime = Config.prime := rfl

end Sys2Proof.Machine.State

namespace Sys2Proof.Machine

/-- The next state of RESET is in IDLE, with free values in the data registers. -/
theorem exec_reset_eq_next_iff (s t : State) : exec .reset s = .next t ↔ t = s.freeData.goto .idle := by
  rw [show exec .reset s = .next (s.freeData.goto .idle) from rfl, Host.Outcome.next.injEq, eq_comm]

/-- RESET writes IDLE to `PH` and leaves the primes alone. -/
theorem exec_reset_ph_prime {s t : State} (h : exec .reset s = .next t) :
    t.ph = Phase.idle.code ∧ t.prime = s.prime := by
  obtain rfl := (exec_reset_eq_next_iff s t).mp h
  exact ⟨State.goto_ph _ _, by rw [State.goto_prime, State.freeData_prime]⟩

/-- Settles O45: both outputs are read off the phase, and both resets leave IDLE there. -/
theorem statusOutputsFollowThePhase : Obligations.StatusOutputsFollowThePhase :=
  ⟨fun s => ⟨s.done_eq_true_iff, s.busy_eq_true_iff⟩,
    State.done_eq_false_of_idle State.reset_ph, State.busy_eq_false_of_idle State.reset_ph,
    fun _ _ h =>
      have hph := (exec_reset_ph_prime h).1
      ⟨State.done_eq_false_of_idle hph, State.busy_eq_false_of_idle hph⟩⟩

/-- Settles O48: the phase and the outputs as in O45; the primes after reset are the configured table, read entry by
entry. -/
theorem resetState : Obligations.ResetState := by
  refine ⟨State.reset_ph, State.busy_eq_false_of_idle State.reset_ph, State.done_eq_false_of_idle State.reset_ph, ?_⟩
  rw [State.reset_prime]
  exact ⟨rfl, rfl, rfl, rfl, rfl, rfl, rfl, fun _ _ h => exec_reset_ph_prime h⟩

end Sys2Proof.Machine
end

section
/-! Inversion of `exec`: the next state each instruction can answer, as named updates of the old one. The frame of
10_state R20 (its writers column) is then read off register by register. -/

namespace Sys2Proof.Machine

/-- The registers INIT writes on both paths (41_init R121). -/
@[simp] def initCommon (s : State) : State := ((s.setAcc .a s.seedq).setAcc .b s.lenq).setOff 0

/-- The two lines of SQUASH that fold `c, d` into `a, b` (43_squash R140). -/
@[simp] def squashFold (s : State) : State :=
  let s := s.setAcc .a (bxor s.a (mullo s.prime[6] (add s.c (rotr s.d 23))))
  s.setAcc .b (bxor s.b (mullo s.prime[5] (add (rotr s.c 19) s.d)))

/-- The next states an instruction can answer, with the condition of each. -/
inductive ExecNext (s : State) : Instr → State → Prop where
  | initLong (h : isLong s.lenq = true) : ExecNext s .init (initLong (initCommon s))
  | initShort (h : isLong s.lenq = false) : ExecNext s .init (initShort (initCommon s))
  | block {w0 w1 w2 w3 : Word} (h0 : memRead s s.off 8 = .next w0) (h1 : memRead s (add s.off 8) 8 = .next w1)
      (h2 : memRead s (add s.off 16) 8 = .next w2) (h3 : memRead s (add s.off 24) 8 = .next w3) :
      ExecNext s .block (afterBlock ((butterfly s w0 w1 w2 w3).advance 32))
  | squash : ExecNext s .squash
      (((squashFold s).setRes ((s.lenq.extractLsb' 0 5).setWidth 6)).goto .dispatch)
  | dispatch : ExecNext s .dispatch (s.goto (firstTailPhase s.res))
  | mix4 {w : Word} (h : memRead s s.off 8 = .next w) :
      ExecNext s .mix4 ((mixup (s.advance 8) .a .b w s.prime[4]).goto .mix3)
  | mix3 {w : Word} (h : memRead s s.off 8 = .next w) :
      ExecNext s .mix3 ((mixup (s.advance 8) .b .a w s.prime[3]).goto .mix2)
  | mix2 {w : Word} (h : memRead s s.off 8 = .next w) :
      ExecNext s .mix2 ((mixup (s.advance 8) .a .b w s.prime[2]).goto .mix1)
  | mix1 {w : Word} (h : memRead s s.off (partialLength s.res) = .next w) :
      ExecNext s .mix1 ((mixup (s.advance (partialLength s.res)) .b .a w s.prime[1]).goto .final)
  | final : ExecNext s .final ((s.setDigest (avalanche s.prime s.a s.b)).goto .done)
  | reset : ExecNext s .reset (s.freeData.goto .idle)
  | startAccepted (h : s.busy = false) :
      ExecNext s .start (((s.latch s.ports.seed s.ports.len).freeDigest).goto .init)
  | startIgnored (h : s.busy = true) : ExecNext s .start s

/-- A next state of `exec` is one of those of `ExecNext`. -/
theorem exec_next_cases {i : Instr} {s t : State} (h : exec i s = .next t) : ExecNext s i t := by
  cases i with
  | init =>
    obtain rfl := Host.Outcome.next.inj h
    split
    case isTrue hl => exact .initLong hl
    case isFalse hl => exact .initShort (Bool.eq_false_iff.mpr hl)
  | block =>
    obtain ⟨-, w0, w1, w2, w3, h0, h1, h2, h3, rfl⟩ := execBlock_next h
    exact .block h0 h1 h2 h3
  | squash => obtain rfl := Host.Outcome.next.inj h; exact .squash
  | dispatch => obtain rfl := Host.Outcome.next.inj h; exact .dispatch
  | mix4 => obtain ⟨w, hw, rfl⟩ := fetch64_then_next h; exact .mix4 hw
  | mix3 => obtain ⟨w, hw, rfl⟩ := fetch64_then_next h; exact .mix3 hw
  | mix2 => obtain ⟨w, hw, rfl⟩ := fetch64_then_next h; exact .mix2 hw
  | mix1 => obtain ⟨w, hw, rfl⟩ := fetchTail_then_next h; exact .mix1 hw
  | final => obtain rfl := Host.Outcome.next.inj h; exact .final
  | reset => obtain rfl := (exec_reset_eq_next_iff s t).mp h; exact .reset
  | start =>
    obtain rfl := Host.Outcome.next.inj h
    split
    case isTrue hb => exact .startIgnored hb
    case isFalse hb => exact .startAccepted (Bool.eq_false_iff.mpr hb)

/-! ### What no instruction writes -/

section Frame

variable {i : Instr} {s t : State}

/-- The buffer is the host's: no instruction writes it (20_memory R52). -/
theorem exec_buf (h : exec i s = .next t) : t.buf = s.buf := by
  cases exec_next_cases h <;> simp [initLong, initShort]

/-- The primes are hardwired (10_state R27). -/
theorem exec_prime (h : exec i s = .next t) : t.prime = s.prime := by
  cases exec_next_cases h <;> simp [initLong, initShort]

theorem exec_ports (h : exec i s = .next t) : t.ports = s.ports := by
  cases exec_next_cases h <;> simp [initLong, initShort]

theorem exec_schedule (h : exec i s = .next t) : t.schedule = s.schedule := by
  cases exec_next_cases h <;> simp [initLong, initShort]

/-! ### Each register but by its writers (10_state R20) -/

/-- START and RESET alone write the latches and use up free values. -/
theorem exec_lenq_seedq_draws (h : exec i s = .next t) (hs : i ≠ .start) (hr : i ≠ .reset) :
    t.lenq = s.lenq ∧ t.seedq = s.seedq ∧ t.draws = s.draws := by
  cases exec_next_cases h <;> simp [initLong, initShort] at hs hr ⊢

/-- `DIGEST` has the writers FINAL, START and RESET. -/
theorem exec_digest (h : exec i s = .next t) (hs : i ≠ .start) (hr : i ≠ .reset) (hf : i ≠ .final) :
    t.digest = s.digest := by
  cases exec_next_cases h <;> simp [initLong, initShort] at hs hr hf ⊢

/-- `c` and `d` have the writers INIT, BLOCK and RESET: a mixup step is between `a` and `b`. -/
theorem exec_c_d (h : exec i s = .next t) (hr : i ≠ .reset) (hi : i ≠ .init) (hb : i ≠ .block) :
    t.c = s.c ∧ t.d = s.d := by
  cases exec_next_cases h <;> simp [mixup] at hr hi hb ⊢

/-- `RES` has the writers INIT, SQUASH and RESET. -/
theorem exec_res (h : exec i s = .next t) (hr : i ≠ .reset) (hi : i ≠ .init) (hq : i ≠ .squash) :
    t.res = s.res := by
  cases exec_next_cases h <;> simp at hr hi hq ⊢

/-- DISPATCH and FINAL leave `a` and `b` alone. -/
theorem exec_a_b (h : exec i s = .next t) (hi : i = .dispatch ∨ i = .final) : t.a = s.a ∧ t.b = s.b := by
  rcases hi with rfl | rfl <;> cases exec_next_cases h <;> simp

/-- SQUASH, DISPATCH and FINAL leave `OFF` alone. -/
theorem exec_off (h : exec i s = .next t) (hi : i = .squash ∨ i = .dispatch ∨ i = .final) : t.off = s.off := by
  rcases hi with rfl | rfl | rfl <;> cases exec_next_cases h <;> simp

end Frame

/-- Settles O37: the buffer, the primes, the pins and the schedule by their frame lemmas, and each register by the lemma
of its writers. -/
theorem engineOperationFrame : Obligations.EngineOperationFrame := by
  intro i s t h
  refine ⟨fun j => by rw [exec_buf h], exec_buf h, exec_prime h, exec_ports h, exec_schedule h, fun hs hr => ?_⟩
  obtain ⟨hlenq, hseedq, hdraws⟩ := exec_lenq_seedq_draws h hs hr
  exact ⟨hlenq, hseedq, hdraws, exec_digest h hs hr, exec_c_d h hr, exec_res h hr, exec_a_b h, exec_off h⟩

end Sys2Proof.Machine
end

section
/-! The value of a little-endian word as a sum over its bytes (20_memory R55, R56). -/

namespace Sys2Proof.Machine

/-- The little-endian sum of bytes: byte `j` times 2^(8j) (20_memory R56). -/
def leSum (vs : List Byte) : Nat := ((List.range vs.length).map fun j => (vs.getD j 0).toNat * 2 ^ (8 * j)).sum

@[simp] theorem leSum_nil : leSum [] = 0 := rfl

/-- One byte in front moves the others up by eight bits. -/
theorem leSum_cons (v : Byte) (vs : List Byte) : leSum (v :: vs) = v.toNat + 2 ^ 8 * leSum vs := by
  have shift : ∀ j, ((v :: vs).getD (j + 1) 0).toNat * 2 ^ (8 * (j + 1)) =
      2 ^ 8 * ((vs.getD j 0).toNat * 2 ^ (8 * j)) := fun j => by
    rw [List.getD_cons_succ, Nat.mul_succ, Nat.pow_add, Nat.mul_comm (2 ^ (8 * j)), Nat.mul_left_comm]
  simp only [leSum, List.length_cons, List.range_succ_eq_map, List.map_cons, List.sum_cons, List.map_map,
    Function.comp_def, Nat.succ_eq_add_one, shift, List.sum_map_mul_left]
  simp

/-- A word of at most eight bytes is their little-endian sum: the bound of `leWord_lt` keeps each byte inside the 64
bits. -/
theorem leWord_toNat {vs : List Byte} (h : vs.length ≤ 8) : (leWord vs).toNat = leSum vs := by
  induction vs with
  | nil => rfl
  | cons v vs ih =>
    rw [List.length_cons] at h
    have hw : (leWord vs).toNat < 2 ^ 56 :=
      (leWord_lt vs (by omega)).trans_le (Nat.pow_le_pow_right (by decide) (by omega))
    have hv : v.toNat < 2 ^ 8 := v.isLt
    rw [leWord_cons_toNat, leSum_cons, ← ih (by omega), Nat.mod_eq_of_lt (by omega)]

/-- The byte at the lowest offset is bits [7:0]. -/
theorem leWord_cons_lowByte (v : Byte) (vs : List Byte) : (leWord (v :: vs)).extractLsb' 0 8 = v := by
  apply BitVec.eq_of_toNat_eq
  have hv : v.toNat < 2 ^ 8 := v.isLt
  rw [BitVec.extractLsb'_toNat, leWord_cons_toNat, Nat.shiftRight_zero]
  omega

/-- Above its `k` bytes a word is zero (20_memory R56). -/
theorem leWord_getLsbD_of_ge {vs : List Byte} (h : vs.length ≤ 8) {j : Nat} (hj : 8 * vs.length ≤ j) :
    (leWord vs).getLsbD j = false :=
  Nat.testBit_lt_two_pow ((leWord_lt vs h).trans_le (Nat.pow_le_pow_right (by decide) hj))

/-- A read of placed bytes inside the input answers their word. -/
theorem memRead_of_byteAt {s : State} {addr : Word} {vs : List Byte} (h : addr.toNat + vs.length ≤ s.lenq.toNat)
    (hb : ∀ j < vs.length, Memory.byteAt s.buf (addr.toNat + j) = vs[j]?) :
    memRead s addr vs.length = .next (leWord vs) :=
  memRead_of_readBytes h ((Memory.readBytes_eq_some_iff ..).mpr ⟨rfl, hb⟩)

/-- Settles O39: the word of the eight bytes, its value by `leWord_toNat`. -/
theorem fullWordIsLittleEndian : Obligations.FullWordIsLittleEndian := by
  intro s addr b0 b1 b2 b3 b4 b5 b6 b7 hlen hbytes
  refine ⟨_, memRead_of_byteAt (vs := [b0, b1, b2, b3, b4, b5, b6, b7]) hlen hbytes, ?_, leWord_cons_lowByte ..⟩
  rw [leWord_toNat (by simp)]
  simp only [leSum_cons, leSum_nil]
  omega

/-- Settles O40: the word of the `k` bytes, its value, its bound and its zero bits. -/
theorem partialWordZeroExtends : Obligations.PartialWordZeroExtends :=
  fun _ _ vs _ hk hlen hbytes =>
    ⟨leWord vs, memRead_of_byteAt hlen hbytes, leWord_toNat hk, leWord_lt vs hk, fun _ => leWord_getLsbD_of_ge hk⟩

end Sys2Proof.Machine
end

section
/-! The phase codes (30_encoding R82): the encoder writes those of the operations, IDLE and DONE have no step, and the
codes from 11 up are reserved. -/

namespace Sys2Proof

/-- Each row of the opcode table is found by the word the encoder writes for it. -/
@[simp] theorem decode_encode (i : Instr) : decode (encode i) = .instr i := by cases i <;> rfl

/-- The phases without an operation are IDLE and DONE. -/
theorem decode_phase_eq_quiescent_iff :
    ∀ code : BitVec 4, decode (.phase code) = .quiescent ↔ code = Phase.idle.code ∨ code = Phase.done.code := by
  decide

/-- The codes that stand for no phase (30_encoding R90). -/
theorem decode_phase_eq_reserved_iff :
    ∀ code : BitVec 4, decode (.phase code) = .reserved code ↔ 11 ≤ code.toNat := by
  decide

/-- Settles O12: the nine operating codes are the encoder's words; the two quiescent codes and the reserved ones are told
by their equivalences. -/
theorem phaseCodesDecode : Obligations.PhaseCodesDecode :=
  ⟨(decode_phase_eq_quiescent_iff _).mpr (.inl rfl),
    decode_encode .init, decode_encode .block, decode_encode .squash, decode_encode .dispatch, decode_encode .mix4,
    decode_encode .mix3, decode_encode .mix2, decode_encode .mix1, decode_encode .final,
    (decode_phase_eq_quiescent_iff _).mpr (.inr rfl), fun code => (decode_phase_eq_reserved_iff code).mpr⟩

end Sys2Proof
end

section
/-! The arithmetic primitives of 40_arithmetic R100, R101, R102, R104: the value of each as a number or as bits, and the
laws that follow from it. -/

namespace Sys2Proof.Machine

/-! ### MULLO (R104) -/

theorem mullo_toNat (x y : Word) : (mullo x y).toNat = x.toNat * y.toNat % 2 ^ 64 := BitVec.toNat_mul x y

theorem mullo_assoc (x y z : Word) : mullo (mullo x y) z = mullo x (mullo y z) := BitVec.mul_assoc x y z

@[simp] theorem mullo_one (x : Word) : mullo x 1 = x := BitVec.mul_one x

@[simp] theorem mullo_zero (x : Word) : mullo x 0 = 0 := BitVec.mul_zero

/-- The low half does not tell the signed reading from the unsigned one. -/
theorem mullo_eq_ofInt (x y : Word) : mullo x y = BitVec.ofInt 64 (x.toInt * y.toInt) := by
  rw [BitVec.ofInt_mul, BitVec.ofInt_toInt, BitVec.ofInt_toInt, mullo]

/-- An odd number is coprime to 2^64, so an odd word has an inverse. -/
theorem exists_mullo_eq_one_of_odd {p : Word} (hp : p.toNat % 2 = 1) : ∃ q, mullo p q = 1 := by
  have hcop : Nat.Coprime p.toNat (2 ^ 64) := (Nat.odd_iff.mpr hp).coprime_two_right.pow_right 64
  obtain ⟨q, -, hq⟩ := Nat.exists_mul_mod_eq_one_of_coprime hcop (by decide)
  refine ⟨BitVec.ofNat 64 q, BitVec.eq_of_toNat_eq ?_⟩
  rw [mullo_toNat, BitVec.toNat_ofNat, Nat.mul_mod_mod, hq]
  rfl

/-- Multiplication by the inverse takes multiplication by an odd word back. -/
theorem mullo_bijective_of_odd {p : Word} (hp : p.toNat % 2 = 1) : Function.Bijective fun x : Word => mullo x p := by
  obtain ⟨q, hpq⟩ := exists_mullo_eq_one_of_odd hp
  have hqp : mullo q p = 1 := (BitVec.mul_comm q p).trans hpq
  refine Function.bijective_iff_has_inverse.mpr ⟨fun x => mullo x q, fun x => ?_, fun x => ?_⟩
  · simp only [mullo_assoc, hpq, mullo_one]
  · simp only [mullo_assoc, hqp, mullo_one]

/-- Settles O5: the value, both readings, the inverse of an odd word, and the corner cases by evaluation. -/
theorem lowProductModulo2To64 : Obligations.LowProductModulo2To64 :=
  ⟨fun x y => ⟨mullo_toNat x y, mullo_eq_ofInt x y⟩, fun _ => mullo_bijective_of_odd,
    fun x => ⟨mullo_zero x, mullo_one x⟩, by decide⟩

/-! ### ADD (R100) -/

theorem add_toNat (x y : Word) : (add x y).toNat = (x.toNat + y.toNat) % 2 ^ 64 := BitVec.toNat_add x y

/-- Settles O1: ADD is the addition of words, a commutative monoid; the corner cases by evaluation. -/
theorem addWrapsModulo2To64 : Obligations.AddWrapsModulo2To64 :=
  ⟨add_toNat, fun x y z => ⟨BitVec.add_comm x y, BitVec.add_assoc x y z⟩, by decide⟩

/-! ### NOT (R101) and XOR (R102) -/

theorem bxor_getLsbD (x y : Word) (i : Nat) : (bxor x y).getLsbD i = (x.getLsbD i ^^ y.getLsbD i) :=
  BitVec.getLsbD_xor

theorem bnot_getLsbD (x : Word) {i : Nat} (hi : i < 64) : (bnot x).getLsbD i = !x.getLsbD i := by
  rw [bnot, BitVec.getLsbD_not, decide_eq_true hi, Bool.true_and]

theorem bnot_toNat (x : Word) : (bnot x).toNat = 2 ^ 64 - 1 - x.toNat := BitVec.toNat_not

/-- NOT is XOR with the word of ones. -/
theorem bnot_eq_bxor (x : Word) : bnot x = bxor 0xFFFFFFFFFFFFFFFF x := BitVec.allOnes_xor.symm

/-- A word and its complement have no carry between them: their sum is the word of ones. -/
theorem add_bnot_self (x : Word) : add (bnot x) x = 0xFFFFFFFFFFFFFFFF := by
  have hx : x.toNat < 2 ^ 64 := x.isLt
  apply BitVec.eq_of_toNat_eq
  rw [add_toNat, bnot_toNat, Nat.sub_add_cancel (by omega)]
  rfl

/-- Settles O2: the bits, the two arithmetic forms, the sum with the complement, and the corner cases by evaluation. -/
theorem notInvertsEveryBit : Obligations.NotInvertsEveryBit :=
  ⟨fun x _ => bnot_getLsbD x, fun x => ⟨bnot_toNat x, bnot_eq_bxor x⟩,
    fun x => ⟨add_bnot_self x, by rw [add_bnot_self]; rfl⟩, by decide⟩

/-- Exclusive or is addition of bits modulo 2. -/
theorem toNat_bool_xor (p q : Bool) : (p ^^ q).toNat = (p.toNat + q.toNat) % 2 := by
  cases p <;> cases q <;> rfl

/-- Settles O3: bit by bit, and the laws of XOR on words; the example by evaluation. -/
theorem xorAddsBitsModulo2 : Obligations.XorAddsBitsModulo2 :=
  ⟨fun x y i _ => by rw [bxor_getLsbD, toNat_bool_xor], fun _ => ⟨BitVec.xor_zero, BitVec.xor_self⟩,
    fun x y z => ⟨BitVec.xor_comm x y, BitVec.xor_assoc x y z⟩, by decide⟩

end Sys2Proof.Machine
end

section
/-! INIT and START (41_init R120, R121): the next state on each path, told by the latched length, and for each phase. -/

namespace Sys2Proof.Machine

/-! ### INIT (R121) -/

theorem isLong_eq_true_iff (n : Word) : isLong n = true ↔ 32 < n.toNat := by
  rw [isLong, decide_eq_true_eq]

theorem exec_init_of_long {s : State} (h : 32 < s.lenq.toNat) : exec .init s = .next (initLong (initCommon s)) :=
  congrArg Host.Outcome.next (if_pos ((isLong_eq_true_iff _).mpr h))

theorem exec_init_of_short {s : State} (h : ¬ 32 < s.lenq.toNat) : exec .init s = .next (initShort (initCommon s)) :=
  congrArg Host.Outcome.next (if_neg (mt (isLong_eq_true_iff _).mp h))

/-- A length of the short path fits in the six bits of `RES` (10_state R25). -/
theorem toNat_residual_of_le {n : Word} (h : n.toNat ≤ 32) : (n.extractLsb' 0 6).toNat = n.toNat := by
  rw [BitVec.extractLsb'_toNat, Nat.shiftRight_zero, Nat.mod_eq_of_lt (by omega)]

/-- Settles O20: the comparison of `LENQ` with 32 picks the path, whose named updates are the fields stated. -/
theorem initResult : Obligations.InitResult := by
  refine ⟨decode_encode .init, fun s => ?_, fun _ => toNat_residual_of_le⟩
  split
  case isTrue h => exact exec_init_of_long h
  case isFalse h => exact exec_init_of_short h

/-! ### START (R120) -/

/-- The engine is not busy exactly in the two quiescent phases (10_state R30). -/
theorem State.busy_eq_false_iff (s : State) : s.busy = false ↔ s.ph = Phase.idle.code ∨ s.ph = Phase.done.code := by
  rw [← Bool.not_eq_true, busy_eq_true_iff, ← not_or, not_not]

theorem exec_start_of_not_busy {s : State} (h : s.busy = false) :
    exec .start s = .next (((s.latch s.ports.seed s.ports.len).freeDigest).goto .init) :=
  congrArg Host.Outcome.next (if_neg (Bool.eq_false_iff.mp h))

theorem exec_start_of_busy {s : State} (h : s.busy = true) : exec .start s = .next s :=
  congrArg Host.Outcome.next (if_pos h)

/-- Settles O33: IDLE and DONE are the phases in which the engine is not busy. There START latches and leads to INIT, a
busy phase; the free value is the next one of `Config.freeWord`. -/
theorem startResult : Obligations.StartResult := by
  refine ⟨decode_encode .start, fun s => ⟨fun h => ?_, fun h => ?_⟩⟩
  · exact ⟨Config.freeWord s.draws, s.draws + 1, exec_start_of_not_busy (s.busy_eq_false_iff.mpr h), rfl⟩
  · exact exec_start_of_busy (s.busy_eq_true_iff.mpr (not_or.mp h))

end Sys2Proof.Machine
end

section
/-! BLOCK (42_block_loop R130 to R132): the four words of a block are eight-byte windows of its 32 bytes, and the loop
test writes `PH`. -/

namespace Sys2Proof.Machine

/-- A read inside a run of placed bytes answers the word of its window of them: no offset up to `LENQ` wraps. -/
theorem memRead_window {s : State} {addr : Word} {n : Nat} {vs : List Byte} (h : addr.toNat + n ≤ s.lenq.toNat)
    (hv : Memory.readBytes s.buf addr.toNat n = some vs) {i k : Nat} (hik : i + k ≤ n) :
    memRead s (add addr (BitVec.ofNat 64 i)) k = .next (leWord ((vs.drop i).take k)) := by
  have haddr : (add addr (BitVec.ofNat 64 i)).toNat = addr.toNat + i := by
    have hlenq : s.lenq.toNat < 2 ^ 64 := s.lenq.isLt
    rw [add_toNat, BitVec.toNat_ofNat, Nat.add_mod_mod, Nat.mod_eq_of_lt (by omega)]
  obtain ⟨m, rfl⟩ := Nat.exists_eq_add_of_le hik
  rw [Nat.add_assoc] at hv
  refine memRead_of_readBytes (by omega) ?_
  rw [haddr]
  exact (Memory.readBytes_add (Memory.readBytes_add hv).2).1

/-- BLOCK completes when its four reads answer. -/
theorem exec_block_of_memRead {s : State} {w0 w1 w2 w3 : Word} (h0 : memRead s s.off 8 = .next w0)
    (h1 : memRead s (add s.off 8) 8 = .next w1) (h2 : memRead s (add s.off 16) 8 = .next w2)
    (h3 : memRead s (add s.off 24) 8 = .next w3) :
    exec .block s = .next (afterBlock ((butterfly s w0 w1 w2 w3).advance 32)) := by
  simp only [exec, execBlock, h0, h1, h2, h3, andThen_next]

/-- The loop test writes `PH` and nothing else (R130, R132). -/
theorem afterBlock_eq (s : State) :
    afterBlock s =
      { s with ph := if 32 ≤ (s.lenq - s.off).toNat then Phase.block.code else Phase.squash.code } := by
  rw [← afterBlock_ph, afterBlock]
  split <;> rfl

/-- Settles O21: the four words are windows of the block's bytes; the butterfly reads the old accumulators, and the loop
test the new `OFF`. -/
theorem blockResult : Obligations.BlockResult := by
  refine ⟨decode_encode .block, fun s vs hlen hvs => ?_⟩
  have window : ∀ {i : Nat}, i + 8 ≤ 32 →
      memRead s (add s.off (BitVec.ofNat 64 i)) 8 = .next (leWord ((vs.drop i).take 8)) := memRead_window hlen hvs
  have first : memRead s s.off 8 = .next (leWord (vs.take 8)) :=
    memRead_of_readBytes (by omega) (Memory.readBytes_add (n := 8) (k := 24) hvs).1
  rw [exec_block_of_memRead first (window (i := 8) (by decide)) (window (i := 16) (by decide))
    (window (i := 24) (by decide)), afterBlock_eq]
  rfl

end Sys2Proof.Machine
end

section
/-! SQUASH (43_squash R140): its next state as the fold of `c, d` into `a, b`, and `RES` as `LENQ mod 32`. -/

namespace Sys2Proof.Machine

theorem exec_squash (s : State) :
    exec .squash s =
      .next (((squashFold s).setRes ((s.lenq.extractLsb' 0 5).setWidth 6)).goto .dispatch) := rfl

/-- The low five bits of a length are its residue modulo 32, and the sixth bit of `RES` keeps them whole. -/
theorem toNat_residual_mod (n : Word) : ((n.extractLsb' 0 5).setWidth 6).toNat = n.toNat % 32 := by
  rw [BitVec.toNat_setWidth_of_le (by decide), BitVec.extractLsb'_toNat, Nat.shiftRight_zero]

theorem residual_mod_eq_ofNat (n : Word) : (n.extractLsb' 0 5).setWidth 6 = BitVec.ofNat 6 (n.toNat % 32) := by
  rw [← toNat_residual_mod, BitVec.ofNat_toNat, BitVec.setWidth_eq]

/-- Settles O22: the fold's named updates are the fields stated, its second line reading no register the first writes;
`RES` is the residue of `LENQ`. -/
theorem squashResult : Obligations.SquashResult := by
  refine ⟨decode_encode .squash, fun s => ⟨?_, ?_⟩⟩
  · rw [exec_squash, residual_mod_eq_ofNat]
    rfl
  · rw [← residual_mod_eq_ofNat, toNat_residual_mod]

end Sys2Proof.Machine
end

section
/-! The tail-dispatch mixer (44_tail_dispatch R150 to R157): the band of `RES` as a phase code, the mixup step on two
different accumulators, and each mixing operation as that step on the word it fetched. -/

namespace Sys2Proof.Machine

/-! ### DISPATCH (R150) -/

theorem exec_dispatch (s : State) : exec .dispatch s = .next (s.goto (firstTailPhase s.res)) := rfl

theorem firstTailPhase_code (r : BitVec 6) :
    (firstTailPhase r).code =
      if 25 ≤ r.toNat then 0b0101
      else if 17 ≤ r.toNat then 0b0110
      else if 9 ≤ r.toNat then 0b0111
      else if 1 ≤ r.toNat then 0b1000
      else 0b1001 := by
  unfold firstTailPhase
  split_ifs <;> rfl

/-- Settles O23: DISPATCH goes to the first tail phase, whose code is that of the band. -/
theorem dispatchByBand : Obligations.DispatchByBand := by
  refine ⟨decode_encode .dispatch, fun s _ => ?_⟩
  rw [exec_dispatch, State.goto, firstTailPhase_code]

/-! ### The mixup step (R151) -/

theorem mullo_eq_ofNat (x y : Word) : mullo x y = BitVec.ofNat 64 (x.toNat * y.toNat) := by
  apply BitVec.eq_of_toNat_eq
  rw [mullo_toNat, BitVec.toNat_ofNat]

/-- The write of the target leaves the companion alone, so both lines of the step read the old companion. -/
theorem mixup_of_ne (s : State) {t o : Acc} (h : t ≠ o) (v p : Word) :
    mixup s t o v p =
      (s.setAcc t (bxor (s.acc t) (mullo (add (s.acc o) v) p))).setAcc o
        (add (s.acc o) (mulhi (add (s.acc o) v) p)) := by
  rw [mixup, State.acc_setAcc, if_neg h]

/-- Settles O25: both lines read the old companion, and the two words are the halves of one natural product. -/
theorem mixupFoldsTheProduct : Obligations.MixupFoldsTheProduct := by
  intro s t o v p h
  rw [mixup_of_ne s h, mullo_eq_ofNat]
  rfl

/-! ### The mixing operations (R152 to R157) -/

/-- What a mixing operation leaves, on a word of `n` bytes at `OFF`: the step of target `t` and companion `o`, `OFF` moved
on, and the next phase. -/
def mixed (s : State) (n : Nat) (t o : Acc) (v p : Word) (q : Phase) : State :=
  (((s.advance n).setAcc t (bxor (s.acc t) (mullo (add (s.acc o) v) p))).setAcc o
    (add (s.acc o) (mulhi (add (s.acc o) v) p))).goto q

theorem mixup_advance_goto (s : State) (n : Nat) {t o : Acc} (hto : t ≠ o) (v p : Word) (q : Phase) :
    (mixup (s.advance n) t o v p).goto q = mixed s n t o v p q := by
  rw [mixup_of_ne _ hto, State.acc_advance, State.acc_advance, mixed]

/-- A mixing operation on a full word completes where the word's bytes are placed inside the input (R152). -/
theorem fullWordMix_of_readBytes {s : State} {vs : List Byte} (h : s.off.toNat + 8 ≤ s.lenq.toNat)
    (hv : Memory.readBytes s.buf s.off.toNat 8 = some vs) {t o : Acc} (hto : t ≠ o) (p : Word) (q : Phase) :
    (andThen (fetch64 s) fun f => .next ((mixup f.2 t o f.1 p).goto q)) =
      .next (mixed s 8 t o (leWord vs) p q) := by
  rw [(fetch64_eq_next_iff ..).mpr ⟨memRead_of_readBytes h hv, rfl⟩, andThen_next, mixup_advance_goto s 8 hto]

/-- So does one on the partial word (R153). -/
theorem partialWordMix_of_readBytes {s : State} {vs : List Byte}
    (h : s.off.toNat + partialLength s.res ≤ s.lenq.toNat)
    (hv : Memory.readBytes s.buf s.off.toNat (partialLength s.res) = some vs) {t o : Acc} (hto : t ≠ o) (p : Word)
    (q : Phase) :
    (andThen (fetchTail s) fun f => .next ((mixup f.2 t o f.1 p).goto q)) =
      .next (mixed s (partialLength s.res) t o (leWord vs) p q) := by
  rw [(fetchTail_eq_next_iff ..).mpr ⟨memRead_of_readBytes h hv, rfl⟩, andThen_next, mixup_advance_goto s _ hto]

/-- Settles O27: `a` mixed with companion `b`; the named updates of `mixed` are the fields stated. -/
theorem mix4Result : Obligations.Mix4Result :=
  ⟨decode_encode .mix4, fun _ _ hlen hvs => fullWordMix_of_readBytes hlen hvs (t := .a) (o := .b) (by decide) _ .mix3⟩

/-- Settles O28: `b` mixed with companion `a`. -/
theorem mix3Result : Obligations.Mix3Result :=
  ⟨decode_encode .mix3, fun _ _ hlen hvs => fullWordMix_of_readBytes hlen hvs (t := .b) (o := .a) (by decide) _ .mix2⟩

/-- Settles O29: `a` mixed with companion `b`. -/
theorem mix2Result : Obligations.Mix2Result :=
  ⟨decode_encode .mix2, fun _ _ hlen hvs => fullWordMix_of_readBytes hlen hvs (t := .a) (o := .b) (by decide) _ .mix1⟩

/-- Settles O30: `b` mixed with companion `a`, on the partial word; the stated `k` is the partial length. -/
theorem mix1Result : Obligations.Mix1Result := by
  refine ⟨decode_encode .mix1, fun s k vs hk hlen hvs => ?_⟩
  obtain rfl : k = partialLength s.res := by rw [hk, partialLength_eq]
  exact partialWordMix_of_readBytes hlen hvs (t := .b) (o := .a) (by decide) _ .final

end Sys2Proof.Machine
end

section
/-! FINAL and the phase DONE (45_finalization R170, R173): the avalanche as words, and what a step from DONE can leave. -/

namespace Sys2Proof.Machine

/-! ### FINAL (R170) -/

theorem exec_final (s : State) :
    exec .final s = .next ((s.setDigest (avalanche s.prime s.a s.b)).goto .done) := rfl

/-- Settles O31: `DIGEST` gets the avalanche of `a` and `b`, written out with the operators of words, and `PH` the code of
DONE. -/
theorem finalResult : Obligations.FinalResult :=
  ⟨decode_encode .final, exec_final⟩

/-! ### DONE (R173) -/

/-- The output `DIGEST_BYTES` depends on `PH` and `DIGEST` only (R172). -/
theorem State.digestBytesOut_congr {s t : State} (hph : t.ph = s.ph) (hdigest : t.digest = s.digest) :
    t.digestBytesOut = s.digestBytesOut := by
  rw [digestBytesOut, digestBytesOut, digestOut, digestOut, done, done, hph, hdigest]

/-- In DONE the phase register names no operation (30_encoding R82). -/
theorem decode_done_ne_instr (i : Instr) : decode (.phase Phase.done.code) ≠ .instr i := by
  rw [(decode_phase_eq_quiescent_iff _).mpr (.inr rfl)]
  exact Decoded.noConfusion

/-- The strobe RESET alone decides for RESET: it wins over START (30_encoding R84). -/
theorem decode_hostCommand_eq_reset_iff (p : Ports) :
    decode (.host (hostCommand p)) = .instr .reset ↔ p.reset = true := by
  have key : ∀ reset start : Bool,
      decode (.host (BitVec.ofBool reset ++ BitVec.ofBool start)) = .instr .reset ↔ reset = true := by decide
  exact key p.reset p.start

theorem decode_hostCommand_eq_start_iff (p : Ports) :
    decode (.host (hostCommand p)) = .instr .start ↔ p.reset = false ∧ p.start = true := by
  have key : ∀ reset start : Bool,
      decode (.host (BitVec.ofBool reset ++ BitVec.ofBool start)) = .instr .start ↔ reset = false ∧ start = true := by
    decide
  exact key p.reset p.start

/-- An accepted START leads to INIT (41_init R120). -/
theorem exec_start_ph {s t : State} (h : exec .start s = .next t) (hbusy : s.busy = false) :
    t.ph = Phase.init.code := by
  obtain rfl := Host.Outcome.next.inj ((exec_start_of_not_busy hbusy).symm.trans h)
  exact State.goto_ph _ _

/-- Settles O47: DONE has no operation, so of the steps of `step_cases` only a command of the host writes `PH` or
`DIGEST`; RESET leads to IDLE, and START, the engine not being busy, to INIT. -/
theorem doneHoldsTheDigest : Obligations.DoneHoldsTheDigest := by
  intro s t (hdone : s.ph = Phase.done.code) hstep
  have hold : t.ph = s.ph → t.digest = s.digest →
      t.ph = 0b1010 ∧ t.digest = s.digest ∧ t.digestBytesOut = s.digestBytesOut := fun hph hdigest =>
    ⟨hph.trans hdone, hdigest, State.digestBytesOut_congr hph hdigest⟩
  rcases step_cases hstep with ⟨i, _, hi, _⟩ | ⟨_, _, rfl⟩ | ⟨p, q, i, hs, hi, hexec⟩ | ⟨p, q, _, _, rfl⟩ |
    ⟨_, q, m, _, _, _, _, _, rfl⟩
  · exact absurd (hdone ▸ hi) (decode_done_ne_instr i)
  · exact .inl (hold rfl rfl)
  · refine .inr ⟨p, q, hs, ?_⟩
    rcases host_of_decode hi with rfl | rfl
    · exact .inl ⟨(decode_hostCommand_eq_reset_iff p).mp hi, (exec_reset_ph_prime hexec).1⟩
    · obtain ⟨hreset, hstart⟩ := (decode_hostCommand_eq_start_iff p).mp hi
      exact .inr ⟨hreset, hstart, exec_start_ph hexec ((State.busy_eq_false_iff _).mpr (.inr hdone))⟩
  · exact .inl (hold rfl rfl)
  · exact .inl (hold rfl rfl)

end Sys2Proof.Machine
end

section
/-! The input pins (70_reset_and_hazards R240): driving them commutes with every update of the state, so an instruction
that does not read them commutes with it too. -/

namespace Sys2Proof.Machine

/-- Composites nest to the right. -/
theorem andThen_assoc {α β γ : Type} (x : Host.Outcome α Fault Refusal) (f : α → Host.Outcome β Fault Refusal)
    (g : β → Host.Outcome γ Fault Refusal) :
    andThen (andThen x f) g = andThen x fun v => andThen (f v) g := by
  cases x <;> rfl

/-! ### Driving the pins commutes with the updates -/

theorem State.drive_advance (s : State) (p : Ports) (n : Nat) :
    (s.drive p).advance n = (s.advance n).drive p := rfl

theorem State.drive_goto (s : State) (p : Ports) (q : Phase) : (s.drive p).goto q = (s.goto q).drive p := rfl

theorem mixup_drive (s : State) (p : Ports) (t o : Acc) (v k : Word) :
    mixup (s.drive p) t o v k = (mixup s t o v k).drive p := by
  cases t <;> cases o <;> rfl

theorem butterfly_drive (s : State) (p : Ports) (w0 w1 w2 w3 : Word) :
    butterfly (s.drive p) w0 w1 w2 w3 = (butterfly s w0 w1 w2 w3).drive p := rfl

theorem afterBlock_drive (s : State) (p : Ports) : afterBlock (s.drive p) = (afterBlock s).drive p := by
  rw [afterBlock_eq, afterBlock_eq]
  rfl

/-- No read of the buffer depends on the pins. -/
theorem memRead_drive (s : State) (p : Ports) (addr : Word) (n : Nat) :
    memRead (s.drive p) addr n = memRead s addr n :=
  memRead_congr rfl rfl addr n

/-! ### The operations that read the buffer -/

theorem execBlock_drive (s : State) (p : Ports) :
    execBlock (s.drive p) = andThen (execBlock s) fun t => .next (t.drive p) := by
  simp only [execBlock, andThen_assoc, andThen_next, memRead_drive, State.drive_off, butterfly_drive, State.drive_advance,
    afterBlock_drive]

/-- A mixing operation on a full word, with any two accumulators, prime and next phase. -/
theorem fullWordMix_drive (s : State) (p : Ports) (t o : Acc) (k : Word) (q : Phase) :
    (andThen (fetch64 (s.drive p)) fun f => .next ((mixup f.2 t o f.1 k).goto q)) =
      andThen (andThen (fetch64 s) fun f => .next ((mixup f.2 t o f.1 k).goto q)) fun u => .next (u.drive p) := by
  simp only [fetch64, andThen_assoc, andThen_next, memRead_drive, State.drive_off, State.drive_advance, mixup_drive,
    State.drive_goto]

/-- The same on the partial word. -/
theorem partialWordMix_drive (s : State) (p : Ports) (t o : Acc) (k : Word) (q : Phase) :
    (andThen (fetchTail (s.drive p)) fun f => .next ((mixup f.2 t o f.1 k).goto q)) =
      andThen (andThen (fetchTail s) fun f => .next ((mixup f.2 t o f.1 k).goto q)) fun u => .next (u.drive p) := by
  simp only [fetchTail, andThen_assoc, andThen_next, memRead_drive, State.drive_off, State.drive_res, State.drive_advance,
    mixup_drive, State.drive_goto]

/-! ### The operation with two paths -/

theorem exec_init_drive (s : State) (p : Ports) :
    exec .init (s.drive p) = andThen (exec .init s) fun t => .next (t.drive p) := by
  by_cases h : 32 < s.lenq.toNat
  · rw [exec_init_of_long h, exec_init_of_long (s := s.drive p) h]
    rfl
  · rw [exec_init_of_short h, exec_init_of_short (s := s.drive p) h]
    rfl

/-- Settles O35: the operations that read the buffer by their lemmas, stops included; the others complete with updates that
do not name the pins; a START that is ignored leaves the driven state as it is. -/
theorem pinsReadOnlyByStart : Obligations.PinsReadOnlyByStart := by
  intro i s p h
  cases i with
  | init => exact exec_init_drive s p
  | block => exact execBlock_drive s p
  | mix4 => exact fullWordMix_drive s p .a .b _ .mix3
  | mix3 => exact fullWordMix_drive s p .b .a _ .mix2
  | mix2 => exact fullWordMix_drive s p .a .b _ .mix1
  | mix1 => exact partialWordMix_drive s p .b .a _ .final
  | squash | dispatch | final | reset => rfl
  | start =>
    have hbusy : s.busy = true := h.resolve_left (not_not_intro rfl)
    rw [exec_start_of_busy hbusy, exec_start_of_busy (s := s.drive p) hbusy, andThen_next]

end Sys2Proof.Machine
end

section
/-! The commands of the host (70_reset_and_hazards R230, R239): RESET in every phase, and START as a host step while the
engine is busy. -/

namespace Sys2Proof.Machine

/-- Settles O32: RESET's next state has IDLE in `PH`, so both outputs are 0; the rest is the frame of `exec`. -/
theorem resetCommandResult : Obligations.ResetCommandResult := by
  refine ⟨decode_encode .reset, rfl, fun s => ⟨s.freeData.goto .idle, ?_⟩⟩
  have hexec : exec .reset s = .next (s.freeData.goto .idle) := (exec_reset_eq_next_iff s _).mpr rfl
  obtain ⟨hph, hprime⟩ := exec_reset_ph_prime hexec
  exact ⟨hexec, hph, State.busy_eq_false_of_idle hph, State.done_eq_false_of_idle hph, hprime, exec_buf hexec,
    exec_ports hexec, exec_schedule hexec⟩

/-- A host step with a command runs it on the driven state (30_encoding R83). -/
theorem step_of_host_instr {s : State} {p : Ports} {q : List Move} {i : Instr} (hs : s.schedule = .host p :: q)
    (hi : decode (.host (hostCommand p)) = .instr i) : step s = exec i ((s.setSchedule q).drive p) := by
  simp only [step, fetch, hs, fetchHost, hi]

/-- Settles O34: driving the pins and using up the step leave `PH`, so the driven state is busy too and START leaves it
as it is. -/
theorem startIgnoredWhileBusy : Obligations.StartIgnoredWhileBusy := by
  refine ⟨fun _ => exec_start_of_busy, fun s p q hs hreset hstart hbusy => ?_⟩
  rw [step_of_host_instr hs ((decode_hostCommand_eq_start_iff p).mpr ⟨hreset, hstart⟩)]
  exact exec_start_of_busy (s := (s.setSchedule q).drive p) hbusy

end Sys2Proof.Machine
end

section
/-! The two formats from the word's side (30_encoding R82, R84, R97): which word decodes to which instruction, and the
words of the opcode table by the width of their format. -/

namespace Sys2Proof

/-! ### Decode and encode (R97) -/

/-- In format P each operation has one word. -/
theorem phase_eq_encode_of_decode {code : BitVec 4} {i : Instr} (h : decode (.phase code) = .instr i) :
    Encoding.phase code = encode i := by
  have key : ∀ i : Instr, ∀ c : BitVec 4, decode (.phase c) = .instr i → Encoding.phase c = encode i := by
    intro i; cases i <;> decide
  exact key i code h

/-- RESET has the two words `1x` of format H (R84). -/
theorem decode_host_eq_reset_iff :
    ∀ command : BitVec 2, decode (.host command) = .instr .reset ↔ command = 0b10 ∨ command = 0b11 := by
  decide

theorem decode_host_eq_start_iff :
    ∀ command : BitVec 2, decode (.host command) = .instr .start ↔ command = 0b01 := by
  decide

/-- Settles O11: the encoder's word is read back; the other way, format P word by word, and format H by the words of its
two commands. -/
theorem decodeEncodeAgree : Obligations.DecodeEncodeAgree := by
  refine ⟨fun i _ => decode_encode i, fun e i h => ?_⟩
  cases e with
  | phase code => exact .inl (phase_eq_encode_of_decode h)
  | host command =>
    rcases host_of_decode h with rfl | rfl
    · rcases (decode_host_eq_reset_iff command).mp h with rfl | rfl
      · exact .inl rfl
      · exact .inr ⟨rfl, rfl⟩
    · obtain rfl := (decode_host_eq_start_iff command).mp h
      exact .inl rfl

/-! ### The opcode table's words (R97) -/

/-- A word with a bit above format P is no word of it. -/
theorem decodeTableWord_phase_of_ge {w : Nat} (h : 16 ≤ w) : decodeTableWord 4 w = none := by
  have hw : ¬ w < 16 := by omega
  simp [decodeTableWord, encodingOfTableWord, hw]

theorem decodeTableWord_host_of_ge {w : Nat} (h : 4 ≤ w) : decodeTableWord 2 w = none := by
  have hw : ¬ w < 4 := by omega
  simp [decodeTableWord, encodingOfTableWord, hw]

/-- A table word that decodes is a word of its format. -/
theorem decodeTableWord_eq_some {nbits w : Nat} {i : Instr} (h : decodeTableWord nbits w = some i) :
    ∃ e, encodingOfTableWord nbits w = some e ∧ decode e = .instr i := by
  unfold decodeTableWord at h
  cases he : encodingOfTableWord nbits w with
  | none => simp [he] at h
  | some e =>
    refine ⟨e, rfl, ?_⟩
    cases hd : decode e <;> simp [he, hd, Decoded.instr?] at h
    rw [h]

/-- Settles O15: the words inside each format are read one by one; beyond it there is neither a word nor a row. -/
theorem tableWordsDecode : Obligations.TableWordsDecode := by
  refine ⟨fun w => ?_, fun w => ?_⟩
  · rcases Nat.lt_or_ge w 16 with h | h
    · revert w; decide
    · rw [decodeTableWord_phase_of_ge h, List.getD_eq_default _ _ (by simp; omega)]
  · rcases Nat.lt_or_ge w 4 with h | h
    · revert w; decide
    · rw [decodeTableWord_host_of_ge h, List.getD_eq_default _ _ (by simpa using h)]

end Sys2Proof
end

section
/-! The step, told by whose turn it is (10_state R28, 30_encoding R83, R84, R90; log entries 1, 2, 13, 22). -/

namespace Sys2Proof.Machine

/-! ### The engine's turn -/

theorem step_of_engineTurn_instr {s : State} {i : Instr} (ht : s.EngineTurn) (hi : decode (.phase s.ph) = .instr i) :
    step s = exec i s.popMove := by
  have hi' : decode (.phase s.popMove.ph) = .instr i := hi
  simp only [step, fetch_of_engineTurn ht, fetchEngine, hi']

theorem step_of_engineTurn_quiescent {s : State} (ht : s.EngineTurn) (hq : decode (.phase s.ph) = .quiescent) :
    step s = .next s.popMove := by
  have hq' : decode (.phase s.popMove.ph) = .quiescent := hq
  simp only [step, fetch_of_engineTurn ht, fetchEngine, hq']

theorem step_of_engineTurn_reserved {s : State} {code : BitVec 4} (ht : s.EngineTurn)
    (hr : decode (.phase s.ph) = .reserved code) : step s = .refused (.reservedPhase code) := by
  have hr' : decode (.phase s.popMove.ph) = .reserved code := hr
  simp only [step, fetch_of_engineTurn ht, fetchEngine, hr']

/-- Settles O16: the phase and the operation it names are those of the state without the used move. -/
theorem stepRunsTheOperationOfThePhase : Obligations.StepRunsTheOperationOfThePhase :=
  fun _ _ => step_of_engineTurn_instr

/-- Settles O18: IDLE and DONE are the phases that decode as quiescent. -/
theorem engineHasNoStepInIdleAndDone : Obligations.EngineHasNoStepInIdleAndDone :=
  fun s ht hp => step_of_engineTurn_quiescent ht ((decode_phase_eq_quiescent_iff s.ph).mpr hp)

/-- No defined phase has a reserved code (30_encoding R82). -/
theorem phase_code_le (p : Phase) : p.code.toNat ≤ 10 := by
  cases p <;> decide

/-- An instruction that completes has written the code of a defined phase to `PH`, or is a START that was ignored. -/
theorem exec_ph_eq_code {i : Instr} {s t : State} (h : exec i s = .next t) : t = s ∨ ∃ q : Phase, t.ph = q.code := by
  cases exec_next_cases h with
  | startIgnored => exact .inl rfl
  | block => rw [afterBlock_ph]; split <;> exact .inr ⟨_, rfl⟩
  | _ => exact .inr ⟨_, State.goto_ph _ _⟩

/-- Settles O14: the reserved codes as in O12; the engine's turn refuses them; what an instruction writes is the code of a
defined phase. -/
theorem reservedPhaseCodesRefused : Obligations.ReservedPhaseCodesRefused := by
  refine ⟨decode_phase_eq_reserved_iff, fun s ht hr => ?_, fun i s t h => ?_⟩
  · exact step_of_engineTurn_reserved ht ((decode_phase_eq_reserved_iff s.ph).mpr hr)
  · rcases exec_ph_eq_code h with rfl | ⟨q, hq⟩
    · exact .inl rfl
    · exact .inr (hq ▸ phase_code_le q)

/-! ### A host step -/

/-- Settles O17: the driven state without the used move, written as one update. -/
theorem stepRunsTheHostCommand : Obligations.StepRunsTheHostCommand :=
  fun _ _ _ _ => step_of_host_instr

/-- With neither strobe there is no command (30_encoding R84). -/
theorem decode_hostCommand_eq_noCommand {p : Ports} (hreset : p.reset = false) (hstart : p.start = false) :
    decode (.host (hostCommand p)) = .noCommand := by
  rw [hostCommand, hreset, hstart]
  rfl

theorem step_of_host_noCommand {s : State} {p : Ports} {q : List Move} (hs : s.schedule = .host p :: q)
    (hd : decode (.host (hostCommand p)) = .noCommand) : step s = .next ((s.setSchedule q).drive p) := by
  simp only [step, fetch, hs, fetchHost, hd]

/-- Settles O13: RESET decides alone, START without it, and with neither the step only drives the pins. -/
theorem hostCommandsDecode : Obligations.HostCommandsDecode :=
  ⟨fun p => (decode_hostCommand_eq_reset_iff p).mpr,
    fun p hreset hstart => (decode_hostCommand_eq_start_iff p).mpr ⟨hreset, hstart⟩,
    fun _ => decode_hostCommand_eq_noCommand,
    fun _ _ _ hs hreset hstart => step_of_host_noCommand hs (decode_hostCommand_eq_noCommand hreset hstart)⟩

end Sys2Proof.Machine
end

section
/-! When an instruction completes (60_exceptions R200, 20_memory R60): exactly when the buffer serves each of its
requests. -/

namespace Sys2Proof.Machine

/-- The buffer answers a request: it lies inside `[0, LENQ)` and the host has placed each byte of it. -/
def State.Serves (s : State) (addr : Word) (n : Nat) : Prop :=
  addr.toNat + n ≤ s.lenq.toNat ∧ ∀ j < n, (Memory.byteAt s.buf (addr.toNat + j)).isSome = true

/-- A computation gives a result. -/
def Completes {α : Type} (x : Host.Outcome α Fault Refusal) : Prop := ∃ v, x = .next v

/-- A computation gives a result, or stops by one of the two names for a read (log entries 9 and 10). -/
def StopsAtReads {α : Type} (x : Host.Outcome α Fault Refusal) : Prop :=
  Completes x ∨ x = .fault .outOfBounds ∨ x = .refused .unfilledByte

section Completion

variable {α β : Type}

theorem completes_next (v : α) : Completes (.next v) := ⟨v, rfl⟩

/-- A composite completes when its first part does and the rest does, where the rest completes whatever the first part
gave. -/
theorem completes_andThen_iff {x : Host.Outcome α Fault Refusal} {f : α → Host.Outcome β Fault Refusal} {P : Prop}
    (hf : ∀ v, Completes (f v) ↔ P) : Completes (andThen x f) ↔ Completes x ∧ P := by
  constructor
  · rintro ⟨w, hw⟩
    obtain ⟨v, hv, hw⟩ := (andThen_eq_next_iff ..).mp hw
    exact ⟨⟨v, hv⟩, (hf v).mp ⟨w, hw⟩⟩
  · rintro ⟨⟨v, rfl⟩, hP⟩
    exact (hf v).mpr hP

theorem completes_andThen_next_iff {x : Host.Outcome α Fault Refusal} {f : α → β} :
    Completes (andThen x fun v => .next (f v)) ↔ Completes x := by
  rw [completes_andThen_iff (P := True) fun v => iff_true_intro (completes_next (f v)), and_true]

theorem StopsAtReads.andThen {x : Host.Outcome α Fault Refusal} {f : α → Host.Outcome β Fault Refusal}
    (hx : StopsAtReads x) (hf : ∀ v, StopsAtReads (f v)) : StopsAtReads (andThen x f) := by
  rcases hx with ⟨v, rfl⟩ | rfl | rfl
  · exact hf v
  · exact .inr (.inl rfl)
  · exact .inr (.inr rfl)

theorem stopsAtReads_next (v : α) : StopsAtReads (.next v) := .inl (completes_next v)

end Completion

/-! ### The reads -/

theorem completes_memRead_iff (s : State) (addr : Word) (n : Nat) :
    Completes (memRead s addr n) ↔ s.Serves addr n := by
  refine ⟨fun ⟨w, hw⟩ => ?_, fun ⟨hb, hf⟩ => memRead_answers hb hf⟩
  obtain ⟨hb, vs, hvs, -⟩ := (memRead_eq_next_iff ..).mp hw
  exact ⟨hb, (Memory.readBytes_isSome_iff ..).mp (Option.isSome_of_eq_some hvs)⟩

theorem completes_fetch64_iff (s : State) : Completes (fetch64 s) ↔ s.Serves s.off 8 :=
  completes_andThen_next_iff.trans (completes_memRead_iff ..)

theorem completes_fetchTail_iff (s : State) :
    Completes (fetchTail s) ↔ s.Serves s.off (partialLength s.res) :=
  completes_andThen_next_iff.trans (completes_memRead_iff ..)

theorem stopsAtReads_fetch64 (s : State) : StopsAtReads (fetch64 s) :=
  .andThen (memRead_cases ..) fun _ => stopsAtReads_next _

theorem stopsAtReads_fetchTail (s : State) : StopsAtReads (fetchTail s) :=
  .andThen (memRead_cases ..) fun _ => stopsAtReads_next _

/-! ### The instructions -/

theorem completes_execBlock_iff (s : State) :
    Completes (execBlock s) ↔
      s.Serves s.off 8 ∧ s.Serves (add s.off 8) 8 ∧ s.Serves (add s.off 16) 8 ∧ s.Serves (add s.off 24) 8 := by
  simp only [← completes_memRead_iff]
  exact completes_andThen_iff fun _ => completes_andThen_iff fun _ => completes_andThen_iff fun _ =>
    completes_andThen_next_iff

/-- An instruction without a request completes; one with requests completes exactly when each is served. -/
theorem completes_exec_iff (i : Instr) (s : State) :
    Completes (exec i s) ↔ ∀ r ∈ bufferRequests s i, s.Serves r.1 r.2 := by
  cases i with
  | init | squash | dispatch | final | reset | start =>
    exact ⟨fun _ r hr => absurd hr List.not_mem_nil, fun _ => completes_next _⟩
  | block =>
    simp only [bufferRequests, List.forall_mem_cons, List.not_mem_nil, false_implies, implies_true, and_true]
    exact completes_execBlock_iff s
  | mix4 | mix3 | mix2 =>
    simp only [bufferRequests, List.forall_mem_singleton]
    exact completes_andThen_next_iff.trans (completes_fetch64_iff s)
  | mix1 =>
    simp only [bufferRequests, List.forall_mem_singleton]
    exact completes_andThen_next_iff.trans (completes_fetchTail_iff s)

theorem stopsAtReads_exec (i : Instr) (s : State) : StopsAtReads (exec i s) := by
  cases i with
  | init | squash | dispatch | final | reset | start => exact stopsAtReads_next _
  | block =>
    exact .andThen (memRead_cases ..) fun _ => .andThen (memRead_cases ..) fun _ => .andThen (memRead_cases ..) fun _ =>
      .andThen (memRead_cases ..) fun _ => stopsAtReads_next _
  | mix4 | mix3 | mix2 => exact .andThen (stopsAtReads_fetch64 s) fun _ => stopsAtReads_next _
  | mix1 => exact .andThen (stopsAtReads_fetchTail s) fun _ => stopsAtReads_next _

/-- Settles O36: the equivalence of `completes_exec_iff`, and no other stop than a read's. -/
theorem execCompletesExactlyWhenServed : Obligations.ExecCompletesExactlyWhenServed :=
  fun i s => ⟨completes_exec_iff i s, fun h => (stopsAtReads_exec i s).resolve_left fun ⟨t, ht⟩ => h t ht⟩

end Sys2Proof.Machine
end

section
/-! The load of a table word (log entry 20): the word's format tells where it is put, and an operation that finds no input in
place completes on the loaded one. -/

namespace Sys2Proof.Machine

/-! ### The input in place -/

theorem inputServes_eq_true_iff (s : State) (i : Instr) :
    inputServes s i = true ↔ ∀ r ∈ bufferRequests s i, s.Serves r.1 r.2 := by
  simp only [inputServes, List.all_eq_true, Bool.and_eq_true, decide_eq_true_eq, Memory.readBytes_isSome_iff,
    State.Serves]

/-- A request inside the loaded input of 32 zero bytes is served. -/
theorem serves_loadInput (s : State) {addr : Word} {n : Nat} (h : addr.toNat + n ≤ 32) :
    (loadInput s).Serves addr n := by
  refine ⟨h, fun j hj => ?_⟩
  rw [loadInput, Memory.byteAt_ofBytes, List.getElem?_replicate_of_lt (by omega)]
  rfl

/-- From offset 0 no operation asks for more than 32 bytes. -/
theorem inputServes_loadInput (s : State) (i : Instr) : inputServes (loadInput s) i = true := by
  refine (inputServes_eq_true_iff ..).mpr fun r hr => serves_loadInput s ?_
  cases i with
  | init | squash | dispatch | final | reset | start => exact absurd hr List.not_mem_nil
  | block =>
    simp only [bufferRequests, List.mem_cons, List.not_mem_nil, or_false] at hr
    rcases hr with rfl | rfl | rfl | rfl <;> simp [loadInput, add]
  | mix4 | mix3 | mix2 =>
    obtain rfl := List.mem_singleton.mp hr
    simp [loadInput]
  | mix1 =>
    obtain rfl := List.mem_singleton.mp hr
    have hk : partialLength s.res ≤ 8 := partialLength_le s.res
    show 0 + partialLength s.res ≤ 32
    omega

theorem completes_exec_of_inputServes {s : State} {i : Instr} (h : inputServes s i = true) : Completes (exec i s) :=
  (completes_exec_iff ..).mpr ((inputServes_eq_true_iff ..).mp h)

/-- Whether the input is in place does not depend on the phase and the schedule. -/
theorem inputServes_phase_schedule (s : State) (i : Instr) (code : BitVec 4) (q : List Move) :
    inputServes { s with ph := code, schedule := q } i = inputServes s i := by
  cases i <;> rfl

/-! ### The word in place -/

/-- A phase code whose input is in place is put into the phase register. -/
theorem present_phase_of_serves {s : State} {code : BitVec 4} {i : Instr} (hi : decode (.phase code) = .instr i)
    (hs : inputServes s i = true) :
    present s (.phase code) = { s with ph := code, schedule := .engine :: s.schedule } := by
  simp only [present, hi, Decoded.instr?, ensureInput, inputServes_phase_schedule, hs, if_true]

/-- Where the input is not in place, one is loaded beside it. -/
theorem present_phase_of_not_serves {s : State} {code : BitVec 4} {i : Instr} (hi : decode (.phase code) = .instr i)
    (hs : ¬ inputServes s i = true) :
    present s (.phase code) = loadInput { s with ph := code, schedule := .engine :: s.schedule } := by
  simp only [present, hi, Decoded.instr?, ensureInput, inputServes_phase_schedule, hs, Bool.false_eq_true,
    if_false]

/-- The pins that carry a command vector sample to it (30_encoding R83). -/
theorem hostCommand_of_bits (p : Ports) (command : BitVec 2) :
    hostCommand { p with reset := command.getLsbD 1, start := command.getLsbD 0 } = command := by
  have key : ∀ c : BitVec 2, BitVec.ofBool (c.getLsbD 1) ++ BitVec.ofBool (c.getLsbD 0) = c := by decide
  exact key command

/-- Settles O19: a phase code goes to `PH`, with the input in place or a loaded one; a command vector goes to the pins, and
neither command asks the buffer for anything. -/
theorem withFetchWordRunsTheWord : Obligations.WithFetchWordRunsTheWord := by
  intro s nbits w i h
  obtain ⟨e, he, hi⟩ := decodeTableWord_eq_some h
  rw [State.withFetchWord, he]
  dsimp only
  cases e with
  | phase code =>
    by_cases hs : inputServes s i = true
    · have hserves : inputServes { s with ph := code } i = true := (inputServes_phase_schedule s i code _).trans hs
      obtain ⟨u, hu⟩ := completes_exec_of_inputServes hserves
      rw [present_phase_of_serves hi hs]
      exact ⟨_, u, step_of_engineTurn_instr (.inr rfl) hi, hu, rfl, rfl, rfl, rfl, rfl, rfl, rfl, rfl, rfl, rfl, rfl,
        rfl, fun _ => ⟨rfl, rfl, rfl⟩⟩
    · obtain ⟨u, hu⟩ := completes_exec_of_inputServes (inputServes_loadInput { s with ph := code } i)
      rw [present_phase_of_not_serves hi hs]
      exact ⟨_, u, step_of_engineTurn_instr (.inr rfl) hi, hu, rfl, rfl, rfl, rfl, rfl, rfl, rfl, rfl, rfl, rfl, rfl,
        rfl, fun hs' => absurd hs' hs⟩
  | host command =>
    have hrun : ∀ t, ∃ u, exec i t = .next u := by
      rcases host_of_decode hi with rfl | rfl <;> exact fun t => completes_next _
    obtain ⟨u, hu⟩ := hrun _
    exact ⟨_, u, step_of_host_instr rfl (by rwa [hostCommand_of_bits]), hu, rfl, rfl, rfl, rfl, rfl, rfl, rfl, rfl, rfl,
      rfl, rfl, rfl, fun _ => ⟨rfl, rfl, rfl⟩⟩

end Sys2Proof.Machine
end

section
/-! The phase register (10_state R28, 45_finalization R175): the phase each operation leads to, and the edges of every
step. -/

namespace Sys2Proof.Machine

/-- The phase an operation leads to; IDLE and DONE have none and stay. -/
def nextPhase (s : State) : Phase → Phase
  | .init => if isLong s.lenq then .block else .dispatch
  | .block => if moreBlocks s.lenq (s.off + 32) then .block else .squash
  | .squash => .dispatch
  | .dispatch => firstTailPhase s.res
  | .mix4 => .mix3
  | .mix3 => .mix2
  | .mix2 => .mix1
  | .mix1 => .final
  | .final | .done => .done
  | .idle => .idle

/-- An operation writes the code of `nextPhase` to `PH`. -/
theorem exec_ph {i : Instr} {p : Phase} {s t : State} (hp : phaseOf i = some p) (h : exec i s = .next t) :
    t.ph = (nextPhase s p).code := by
  cases exec_next_cases h <;> cases hp
  case initLong hl => rw [nextPhase, hl]; rfl
  case initShort hl => rw [nextPhase, hl]; rfl
  case block => simp only [afterBlock_ph, nextPhase, moreBlocks, decide_eq_true_eq, apply_ite Phase.code]; rfl
  all_goals exact State.goto_ph _ _

theorem dispatch_firstTailPhase_mem_phaseEdges (r : BitVec 6) : (Phase.dispatch, firstTailPhase r) ∈ phaseEdges := by
  unfold firstTailPhase
  split_ifs <;> decide

/-- The phases with an operation follow the table's edges. -/
theorem nextPhase_mem_phaseEdges (s : State) {p : Phase} (hidle : p ≠ .idle) (hdone : p ≠ .done) :
    (p, nextPhase s p) ∈ phaseEdges := by
  cases p with
  | idle => exact absurd rfl hidle
  | done => exact absurd rfl hdone
  | init | block => simp only [nextPhase]; split <;> decide
  | dispatch => exact dispatch_firstTailPhase_mem_phaseEdges s.res
  | squash | mix4 | mix3 | mix2 | mix1 | final => simp only [nextPhase]; decide

/-- Every phase but IDLE and DONE has an operation. -/
theorem exists_phaseOf_eq_some {p : Phase} (hidle : p ≠ .idle) (hdone : p ≠ .done) : ∃ i, phaseOf i = some p := by
  cases p with
  | idle => exact absurd rfl hidle
  | done => exact absurd rfl hdone
  | init => exact ⟨.init, rfl⟩
  | block => exact ⟨.block, rfl⟩
  | squash => exact ⟨.squash, rfl⟩
  | dispatch => exact ⟨.dispatch, rfl⟩
  | mix4 => exact ⟨.mix4, rfl⟩
  | mix3 => exact ⟨.mix3, rfl⟩
  | mix2 => exact ⟨.mix2, rfl⟩
  | mix1 => exact ⟨.mix1, rfl⟩
  | final => exact ⟨.final, rfl⟩

/-- The code of an operation's phase decodes to the operation. -/
theorem decode_of_phaseOf {i : Instr} {p : Phase} (h : phaseOf i = some p) : decode (.phase p.code) = .instr i := by
  cases i <;> cases h <;> rfl

/-- A phase with an operation is neither IDLE nor DONE. -/
theorem ne_idle_ne_done_of_phaseOf {i : Instr} {p : Phase} (h : phaseOf i = some p) : p ≠ .idle ∧ p ≠ .done := by
  constructor <;> rintro rfl <;> cases i <;> cases h

theorem ne_start_ne_reset_of_phaseOf {i : Instr} {p : Phase} (h : phaseOf i = some p) : i ≠ .start ∧ i ≠ .reset := by
  constructor <;> rintro rfl <;> cases h

/-- A host command leads to IDLE, or from a quiescent phase to INIT, or leaves the phase. -/
theorem exec_host_ph {i : Instr} {s t : State} (hi : i = .reset ∨ i = .start) (h : exec i s = .next t) :
    t.ph = Phase.idle.code ∨ (t.ph = Phase.init.code ∧ s.busy = false) ∨ t = s := by
  rcases hi with rfl | rfl
  · exact .inl (exec_reset_ph_prime h).1
  · cases exec_next_cases h with
    | startAccepted hb => exact .inr (.inl ⟨State.goto_ph _ _, hb⟩)
    | startIgnored => exact .inr (.inr rfl)

theorem not_engineTurn_of_cons {s : State} {mv : Move} {q : List Move} (hs : s.schedule = mv :: q)
    (hmv : mv ≠ .engine) : ¬ s.EngineTurn := by
  rintro (h | h) <;> rw [hs] at h
  · cases h
  · exact hmv (Option.some.inj h)

theorem eq_of_phase_code_eq {p q : Phase} (h : p.code = q.code) : p = q :=
  Option.some.inj (by rw [← Phase.ofCode_code p, h, Phase.ofCode_code])

theorem eq_idle_or_done_of_code {p : Phase} (h : p.code = Phase.idle.code ∨ p.code = Phase.done.code) :
    p = .idle ∨ p = .done :=
  h.imp eq_of_phase_code_eq eq_of_phase_code_eq

/-- Settles O54: an operation leads to `nextPhase`; every other step of `step_cases` is one of the engine's turn at rest or of
the host. -/
theorem phaseFollowsItsEdges : Obligations.PhaseFollowsItsEdges := by
  intro s t p hp hstep
  have hph : s.ph = p.code := Phase.code_of_ofCode hp
  rcases step_cases hstep with ⟨i, ht, hi, hexec⟩ | ⟨ht, hrest, rfl⟩ | ⟨pins, q, i, hs, hi, hexec⟩ |
    ⟨pins, q, hs, _, rfl⟩ | ⟨mv, q, m, hs, hmv, _, _, _, rfl⟩
  · have hpi : phaseOf i = some p := (phaseOf_of_decode hi).trans hp
    obtain ⟨hidle, hdone⟩ := ne_idle_ne_done_of_phaseOf hpi
    exact ⟨_, exec_ph hpi hexec, fun _ => ⟨fun h => absurd h (not_or.mpr ⟨hidle, hdone⟩),
      fun _ _ => nextPhase_mem_phaseEdges _ hidle hdone⟩, fun hn => absurd ht hn⟩
  · have hrest' : p = .idle ∨ p = .done := eq_idle_or_done_of_code (hph ▸ hrest)
    exact ⟨p, hph, fun _ => ⟨fun _ => rfl, fun hidle hdone => absurd hrest' (not_or.mpr ⟨hidle, hdone⟩)⟩,
      fun hn => absurd ht hn⟩
  · have hn : ¬ s.EngineTurn := not_engineTurn_of_cons hs (by simp)
    rcases exec_host_ph (host_of_decode hi) hexec with h | ⟨h, hb⟩ | rfl
    · exact ⟨.idle, h, fun ht => absurd ht hn, fun _ => .inr (.inl rfl)⟩
    · have hrest : p = .idle ∨ p = .done :=
        eq_idle_or_done_of_code (hph ▸ (State.busy_eq_false_iff _).mp hb)
      exact ⟨.init, h, fun ht => absurd ht hn, fun _ => .inr (.inr ⟨rfl, hrest⟩)⟩
    · exact ⟨p, hph, fun ht => absurd ht hn, fun _ => .inl rfl⟩
  · exact ⟨p, hph, fun ht => absurd ht (not_engineTurn_of_cons hs (by simp)), fun _ => .inl rfl⟩
  · exact ⟨p, hph, fun ht => absurd ht (not_engineTurn_of_cons hs hmv), fun _ => .inl rfl⟩

/-- Settles O38: no instruction writes the primes, and no other step of `step_cases` names them. -/
theorem primesNeverMutated : Obligations.PrimesNeverMutated := by
  intro s t hstep
  rcases step_cases hstep with ⟨i, _, _, hexec⟩ | ⟨_, _, rfl⟩ | ⟨_, _, _, _, _, hexec⟩ | ⟨_, _, _, _, rfl⟩ |
    ⟨_, _, _, _, _, _, _, _, rfl⟩
  · exact (exec_prime hexec).trans (State.setSchedule_prime ..)
  · rfl
  · exact (exec_prime hexec).trans (State.drive_prime ..)
  · rfl
  · rfl

end Sys2Proof.Machine
end

section
/-! What holds of `OFF`, `RES` and `LENQ` in each phase, kept by every operation (20_memory R60, R63; 42_block_loop R132;
43_squash R141; 44_tail_dispatch R159), and the requests that stay inside the input for it. -/

namespace Sys2Proof.Machine

/-! ### Numbers -/

/-- An offset that stays within a word does not wrap. -/
theorem toNat_add_of_le {x n : Word} {k : Nat} (h : x.toNat + k ≤ n.toNat) :
    (x + BitVec.ofNat 64 k).toNat = x.toNat + k := by
  have hn : n.toNat < 2 ^ 64 := n.isLt
  rw [BitVec.toNat_add, BitVec.toNat_ofNat, Nat.add_mod_mod, Nat.mod_eq_of_lt (by omega)]

/-- The subtraction of the loop test does not wrap while `OFF <= LENQ` (40_arithmetic R110). -/
theorem moreBlocks_eq_true_iff {lenq off : Word} (h : off.toNat ≤ lenq.toNat) :
    moreBlocks lenq off = true ↔ off.toNat + 32 ≤ lenq.toNat := by
  rw [moreBlocks, decide_eq_true_eq, BitVec.toNat_sub_of_le (BitVec.le_def.mpr h)]
  omega

/-- Settles O9. -/
theorem loopTestDoesNotWrap : Obligations.LoopTestDoesNotWrap :=
  fun _ _ => moreBlocks_eq_true_iff

theorem residualLength_of_le {n : Nat} (h : n ≤ 32) : residualLength n = n := if_pos h

theorem residualLength_of_gt {n : Nat} (h : 32 < n) : residualLength n = n % 32 := if_neg (by omega)

/-- The tail starts at a multiple of 32, so the residual length has the length's low three bits. -/
theorem residualLength_mod_eight (n : Nat) : residualLength n % 8 = n % 8 := by
  unfold residualLength
  split <;> omega

theorem residualLength_le (n : Nat) : residualLength n ≤ 32 := by
  unfold residualLength
  split <;> omega

/-! ### The promise of a phase depends on three registers -/

theorem State.PhaseOk.congr {s t : State} {p : Phase} (h : s.PhaseOk p) (hoff : t.off = s.off) (hres : t.res = s.res)
    (hlenq : t.lenq = s.lenq) : t.PhaseOk p := by
  cases p with
  | idle | init => trivial
  | _ => simpa only [State.PhaseOk, State.TailOk, State.ResidualOk, hoff, hres, hlenq] using h

/-! ### Each operation establishes the next phase's promise -/

/-- On the short path the whole input is the residual. -/
theorem phaseOk_initShort {s : State} (h : s.lenq.toNat ≤ 32) : (initShort (initCommon s)).PhaseOk .dispatch := by
  have hres : (initShort (initCommon s)).res.toNat = s.lenq.toNat := toNat_residual_of_le h
  refine ⟨?_, rfl, ?_⟩
  · rw [State.ResidualOk, hres]
    exact (residualLength_of_le h).symm
  · rw [hres]
    exact Nat.zero_add _

theorem phaseOk_initLong {s : State} (h : 32 < s.lenq.toNat) : (initLong (initCommon s)).PhaseOk .block :=
  ⟨h, rfl, show 0 + 32 ≤ s.lenq.toNat by omega⟩

/-- INIT's comparison of the latched length. -/
theorem nextPhase_init (s : State) : nextPhase s .init = if 32 < s.lenq.toNat then .block else .dispatch := by
  simp only [nextPhase, isLong_eq_true_iff]

/-- The loop test after a block inside the input. -/
theorem nextPhase_block {s : State} (h : s.off.toNat + 32 ≤ s.lenq.toNat) :
    nextPhase s .block = if s.off.toNat + 32 + 32 ≤ s.lenq.toNat then .block else .squash := by
  have hto : (s.off + 32).toNat = s.off.toNat + 32 := toNat_add_of_le (k := 32) h
  simp only [nextPhase, moreBlocks_eq_true_iff (hto ▸ h), hto]

/-- A block lies inside the input, and moves `OFF` to its end without a wrap. -/
theorem exec_block_off {s t : State} (h : exec .block s = .next t) :
    s.off.toNat + 32 ≤ s.lenq.toNat ∧ t.off.toNat = s.off.toNat + 32 := by
  obtain ⟨hle, _, _, _, _, _, _, _, _, rfl⟩ := execBlock_next h
  have hto : (s.off + 32).toNat = s.off.toNat + 32 := toNat_add_of_le (k := 32) hle
  exact ⟨hle, by simpa using hto⟩

/-- A block leaves `OFF` at a multiple of 32: the next block's, or the end of the last one. -/
theorem phaseOk_after_block {s t : State} (hok : s.PhaseOk .block) (h : exec .block s = .next t)
    (hlenq : t.lenq = s.lenq) : t.PhaseOk (nextPhase s .block) := by
  obtain ⟨hlong, hmod, hle⟩ := hok
  obtain ⟨-, hoff⟩ := exec_block_off h
  rw [← hlenq] at hlong
  rw [nextPhase_block hle, ← hlenq]
  split
  case isTrue hmore => exact ⟨hlong, by omega, by omega⟩
  case isFalse hlast => exact ⟨hlong, by rw [hlenq] at hlast ⊢; omega⟩

theorem phaseOk_after_squash {s t : State} (hok : s.PhaseOk .squash) (hoff : t.off = s.off) (hlenq : t.lenq = s.lenq)
    (hres : t.res.toNat = s.lenq.toNat % 32) : t.PhaseOk .dispatch := by
  obtain ⟨hlong, hend⟩ := hok
  refine ⟨?_, by rw [hoff]; omega, by rw [hoff, hlenq]; omega⟩
  rw [State.ResidualOk, hres, hlenq, residualLength_of_gt hlong]

/-- DISPATCH enters the tail with as many operations to come as the residual needs (30_encoding R88). -/
theorem phaseOk_firstTailPhase {s : State} (hok : s.PhaseOk .dispatch) : s.PhaseOk (firstTailPhase s.res) := by
  obtain ⟨hres, hmod, hsum⟩ := hok
  have hle : s.res.toNat ≤ 32 := hres ▸ residualLength_le _
  have htail : ∀ m, 8 * (m - 1) < s.res.toNat → s.res.toNat ≤ 8 * m → s.TailOk m := fun m hlo hhi =>
    ⟨hres, by omega, by omega, by omega, by omega⟩
  unfold firstTailPhase
  split_ifs
  · exact htail 4 (by omega) (by omega)
  · exact htail 3 (by omega) (by omega)
  · exact htail 2 (by omega) (by omega)
  · exact htail 1 (by omega) (by omega)
  · exact BitVec.eq_of_toNat_eq (by omega)

/-- With at least two tail operations left a whole word remains. -/
theorem State.TailOk.full_word {s : State} {m : Nat} (h : s.TailOk m) (hm : 2 ≤ m) :
    s.off.toNat + 8 ≤ s.lenq.toNat := by
  obtain ⟨-, -, hle, hlo, -⟩ := h
  omega

/-- A full word leaves one tail operation fewer. -/
theorem State.TailOk.after_full_word {s t : State} {m : Nat} (h : s.TailOk (m + 1)) (hm : 1 ≤ m)
    (hoff : t.off = s.off + 8) (hres : t.res = s.res) (hlenq : t.lenq = s.lenq) : t.TailOk m := by
  have hto : (s.off + 8).toNat = s.off.toNat + 8 := toNat_add_of_le (k := 8) (h.full_word (by omega))
  obtain ⟨hr, hmod, hle, hlo, hhi⟩ := h
  unfold State.TailOk State.ResidualOk
  rw [hoff, hto, hres, hlenq]
  exact ⟨hr, by omega, by omega, by omega, by omega⟩

/-- The partial word of the last tail operation is exactly what remains (30_encoding R89). -/
theorem State.TailOk.off_add_partialLength {s : State} (h : s.TailOk 1) :
    s.off.toNat + partialLength s.res = s.lenq.toNat := by
  obtain ⟨hr, hmod, hle, hlo, hhi⟩ := h
  have hmod8 : s.res.toNat % 8 = s.lenq.toNat % 8 := hr ▸ residualLength_mod_eight _
  rw [partialLength_eq]
  split <;> omega

theorem phaseOk_after_mix1 {s t : State} (hok : s.PhaseOk .mix1)
    (hoff : t.off = s.off + BitVec.ofNat 64 (partialLength s.res)) (hlenq : t.lenq = s.lenq) : t.PhaseOk .final := by
  have hend := State.TailOk.off_add_partialLength hok
  refine BitVec.eq_of_toNat_eq ?_
  rw [hoff, hlenq, toNat_add_of_le hend.le, hend]

/-- An operation establishes what the phase it leads to promises. -/
theorem exec_phaseOk {i : Instr} {p : Phase} {s t : State} (hp : phaseOf i = some p) (h : exec i s = .next t)
    (hok : s.PhaseOk p) : t.PhaseOk (nextPhase s p) := by
  cases exec_next_cases h <;> cases hp
  case initLong hl =>
    have hlong := (isLong_eq_true_iff _).mp hl
    rw [nextPhase_init, if_pos hlong]
    exact phaseOk_initLong hlong
  case initShort hl =>
    have hshort := mt (isLong_eq_true_iff _).mpr (Bool.eq_false_iff.mp hl)
    rw [nextPhase_init, if_neg hshort]
    exact phaseOk_initShort (Nat.le_of_not_lt hshort)
  case block => exact phaseOk_after_block hok h (by simp)
  case squash => exact phaseOk_after_squash hok (by simp) (by simp) (toNat_residual_mod _)
  case dispatch => exact (phaseOk_firstTailPhase hok).congr rfl rfl rfl
  case mix4 => exact State.TailOk.after_full_word hok (by decide) (by simp) (by simp) (by simp)
  case mix3 => exact State.TailOk.after_full_word hok (by decide) (by simp) (by simp) (by simp)
  case mix2 => exact State.TailOk.after_full_word hok (by decide) (by simp) (by simp) (by simp)
  case mix1 => exact phaseOk_after_mix1 hok (by simp) (by simp)
  case final => exact hok

/-! ### The invariant -/

/-- Settles O49: the empty buffer is in canonical form, and IDLE promises nothing. -/
theorem invariantAtReset : Obligations.InvariantAtReset :=
  ⟨⟨List.Pairwise.nil, by simp [State.reset]⟩, .idle, rfl, trivial⟩

/-- The invariant from its parts, for a state that holds the code of a phase. -/
theorem inv_of_code {s : State} {p : Phase} (hwf : Memory.wf s.buf) (hph : s.ph = p.code) (hok : s.PhaseOk p) : Inv s :=
  ⟨hwf, p, by rw [hph, Phase.ofCode_code], hok⟩

/-- Settles O50: an operation establishes the next phase's promise, a command leads to IDLE or INIT, which promise nothing,
and the other steps of `step_cases` leave the phase and its registers. -/
theorem stepKeepsTheInvariant : Obligations.StepKeepsTheInvariant := by
  rintro s t ⟨hwf, p, hp, hok⟩ hstep
  have hph : s.ph = p.code := Phase.code_of_ofCode hp
  rcases step_cases hstep with ⟨i, _, hi, hexec⟩ | ⟨_, _, rfl⟩ | ⟨pins, q, i, _, hi, hexec⟩ | ⟨pins, q, _, _, rfl⟩ |
    ⟨_, q, m, _, _, _, hm, _, rfl⟩
  · have hpi : phaseOf i = some p := (phaseOf_of_decode hi).trans hp
    exact inv_of_code (exec_buf hexec ▸ hwf) (exec_ph hpi hexec) (exec_phaseOk hpi hexec (hok.congr rfl rfl rfl))
  · exact inv_of_code hwf hph (hok.congr rfl rfl rfl)
  · have hwf' : Memory.wf t.buf := exec_buf hexec ▸ hwf
    rcases exec_host_ph (host_of_decode hi) hexec with h | ⟨h, _⟩ | rfl
    · exact inv_of_code (p := .idle) hwf' h trivial
    · exact inv_of_code (p := .init) hwf' h trivial
    · exact inv_of_code hwf hph (hok.congr rfl rfl rfl)
  · exact inv_of_code hwf hph (hok.congr rfl rfl rfl)
  · exact inv_of_code (hm hwf) hph (hok.congr rfl rfl rfl)

/-! ### The requests (20_memory R60, R63) -/

/-- In a phase whose promise holds, the requests of its operation lie inside `[0, LENQ)`. -/
theorem request_inside {s : State} {i : Instr} {p : Phase} (hp : phaseOf i = some p) (hok : s.PhaseOk p)
    {r : Word × Nat} (hr : r ∈ bufferRequests s i) :
    r.1.toNat + r.2 ≤ s.lenq.toNat ∧ requestWellFormed r.2 = true := by
  cases i with
  | init | squash | dispatch | final | reset | start => exact absurd hr List.not_mem_nil
  | block =>
    cases hp
    obtain ⟨-, -, hle⟩ := hok
    have hat : ∀ k, k + 8 ≤ 32 → (add s.off (BitVec.ofNat 64 k)).toNat + 8 ≤ s.lenq.toNat := fun k hk => by
      rw [add, toNat_add_of_le (n := s.lenq) (by omega)]
      omega
    simp only [bufferRequests, List.mem_cons, List.not_mem_nil, or_false] at hr
    rcases hr with rfl | rfl | rfl | rfl
    · exact ⟨show s.off.toNat + 8 ≤ s.lenq.toNat by omega, rfl⟩
    · exact ⟨hat 8 (by decide), rfl⟩
    · exact ⟨hat 16 (by decide), rfl⟩
    · exact ⟨hat 24 (by decide), rfl⟩
  | mix4 | mix3 | mix2 =>
    cases hp
    obtain rfl := List.mem_singleton.mp hr
    exact ⟨State.TailOk.full_word hok (by decide), rfl⟩
  | mix1 =>
    cases hp
    obtain rfl := List.mem_singleton.mp hr
    refine ⟨(State.TailOk.off_add_partialLength hok).le, ?_⟩
    simp only [requestWellFormed, Bool.and_eq_true, decide_eq_true_eq]
    exact ⟨partialLength_pos s.res, partialLength_le s.res⟩

/-- The promise of the phase whose operation the engine is about to run. -/
theorem Inv.phaseOk {s : State} (h : Inv s) {i : Instr} (hi : decode (.phase s.ph) = .instr i) :
    ∃ p, phaseOf i = some p ∧ s.PhaseOk p := by
  obtain ⟨-, p, hp, hok⟩ := h
  exact ⟨p, (phaseOf_of_decode hi).trans hp, hok⟩

theorem Inv.phaseOk_of_code {s : State} (h : Inv s) {p : Phase} (hph : s.ph = p.code) : s.PhaseOk p := by
  obtain ⟨-, q, hq, hok⟩ := h
  obtain rfl : p = q := eq_of_phase_code_eq (hph ▸ Phase.code_of_ofCode hq)
  exact hok

/-- Settles O51: the requests of the phase's operation, inside the input by the phase's promise. -/
theorem readsStayInsideTheInput : Obligations.ReadsStayInsideTheInput := by
  intro s i hinv hi r hr
  obtain ⟨p, hp, hok⟩ := hinv.phaseOk hi
  exact request_inside hp hok hr

/-- One request tiles the bytes from its `OFF` to the next one. -/
theorem tiles_one {s t : State} {n : Nat} {w : Word} (h : memRead s s.off n = .next w)
    (hoff : t.off = s.off + BitVec.ofNat 64 n) : Tiles s.off.toNat [(s.off, n)] t.off.toNat := by
  have hle := ((memRead_eq_next_iff ..).mp h).1
  exact ⟨rfl, by rw [hoff, toNat_add_of_le hle]; rfl⟩

theorem exec_block_tiles {s t : State} (h : exec .block s = .next t) :
    Tiles s.off.toNat (bufferRequests s .block) t.off.toNat := by
  obtain ⟨hle, hoff⟩ := exec_block_off h
  have hat : ∀ k, k ≤ 32 → (s.off + BitVec.ofNat 64 k).toNat = s.off.toNat + k := fun k hk =>
    toNat_add_of_le (n := s.lenq) (by omega)
  exact ⟨rfl, hat 8 (by decide), hat 16 (by decide), hat 24 (by decide), hoff.symm⟩

/-- An operation after INIT that completes has read exactly the bytes from its `OFF` to the next one. -/
theorem exec_tiles {i : Instr} {s t : State} (hi : i ≠ .init) (hr : i ≠ .reset) (hs : i ≠ .start)
    (h : exec i s = .next t) : Tiles s.off.toNat (bufferRequests s i) t.off.toNat := by
  cases i with
  | init => exact absurd rfl hi
  | reset => exact absurd rfl hr
  | start => exact absurd rfl hs
  | squash | dispatch | final =>
    rw [exec_off h (by simp)]
    rfl
  | block => exact exec_block_tiles h
  | mix4 | mix3 | mix2 | mix1 =>
    cases exec_next_cases h
    exact tiles_one ‹_› (by simp)

theorem exec_init_off {s t : State} (h : exec .init s = .next t) : t.off = 0 := by
  cases exec_next_cases h <;> simp [initLong, initShort]

/-- Settles O52: the tiles of each operation, and the ends of the tiling by the promises of DISPATCH and DONE. -/
theorem readsTileTheInput : Obligations.ReadsTileTheInput := by
  refine ⟨fun _ _ h => ⟨exec_init_off h, rfl⟩, fun _ _ _ => exec_tiles, fun s hinv hph => ?_, fun s hinv hph => ?_⟩
  · obtain ⟨-, -, hsum⟩ := hinv.phaseOk_of_code (p := .dispatch) hph
    exact hsum
  · exact hinv.phaseOk_of_code (p := .done) hph

/-! ### Progress (60_exceptions R215) -/

/-- With an honest length an operation of a phase whose promise holds completes. -/
theorem completes_exec_of_filled {s : State} {i : Instr} {p : Phase} (hp : phaseOf i = some p) (hok : s.PhaseOk p)
    (hfilled : s.Filled) : Completes (exec i s) := by
  refine (completes_exec_iff i s).mpr fun r hr => ?_
  have hin := (request_inside hp hok hr).1
  exact ⟨hin, fun j hj => hfilled _ (by omega)⟩

/-- An operation writes neither the length nor the buffer. -/
theorem exec_filled {s t : State} {i : Instr} {p : Phase} (hp : phaseOf i = some p) (h : exec i s = .next t)
    (hfilled : s.Filled) : t.Filled := by
  obtain ⟨hstart, hreset⟩ := ne_start_ne_reset_of_phaseOf hp
  unfold State.Filled
  rw [exec_buf h, (exec_lenq_seedq_draws h hstart hreset).1]
  exact hfilled

/-- Settles O53: while busy the phase has an operation, whose requests are inside the filled part of the buffer. -/
theorem busyEngineAlwaysSteps : Obligations.BusyEngineAlwaysSteps := by
  rintro s ⟨-, p, hp, hok⟩ hbusy hfilled hturn
  have hph : s.ph = p.code := Phase.code_of_ofCode hp
  obtain ⟨hidle, hdone⟩ := (State.busy_eq_true_iff s).mp hbusy
  obtain ⟨i, hpi⟩ := exists_phaseOf_eq_some (p := p) (fun h => hidle (h ▸ hph)) (fun h => hdone (h ▸ hph))
  obtain ⟨t, ht⟩ := completes_exec_of_filled (s := s.popMove) hpi (hok.congr rfl rfl rfl) hfilled
  exact ⟨t, (step_of_engineTurn_instr hturn (hph ▸ decode_of_phaseOf hpi)).trans ht, exec_filled hpi ht hfilled⟩

end Sys2Proof.Machine
end

section
/-! Runs of the engine alone: an honest state in a phase with an operation steps to an honest state of the next phase, and
so through the loop (42_block_loop R133). -/

namespace Sys2Proof.Machine

/-! ### Runs as composites of steps -/

section Core

variable {M : Host.Core} {s t : M.State}

theorem run_succ_of_step_next (k : Nat) (h : M.step s = .next t) : M.run (k + 1) s = M.run k t := by
  simp only [Host.Core.run, h]

theorem run_succ_of_step_fault (k : Nat) {r : M.Fault} (h : M.step s = .fault r) : M.run (k + 1) s = .fault r := by
  simp only [Host.Core.run, h]

theorem run_succ_of_step_refused (k : Nat) {r : M.Refusal} (h : M.step s = .refused r) :
    M.run (k + 1) s = .refused r := by
  simp only [Host.Core.run, h]

end Core

/-- `Host.Core.run` of this machine, on its own state type. -/
def runs (k : Nat) (s : State) : Host.Outcome State Fault Refusal := Host.Core.run core k s

/-- A run is its first step and the rest. -/
theorem runs_succ (k : Nat) (s : State) : runs (k + 1) s = andThen (step s) (runs k) := by
  cases h : step s with
  | next t => exact run_succ_of_step_next (M := core) k h
  | fault r => exact run_succ_of_step_fault (M := core) k h
  | refused r => exact run_succ_of_step_refused (M := core) k h

/-- A run is its beginning and the last step. -/
theorem runs_succ_last (k : Nat) (s : State) : runs (k + 1) s = andThen (runs k s) step := by
  induction k generalizing s with
  | zero =>
    rw [runs_succ]
    cases h : step s <;> exact h.symm
  | succ k ih =>
    rw [runs_succ, runs_succ k, andThen_assoc]
    exact congrArg (andThen (step s)) (funext ih)

/-! ### Honest states -/

/-- Only the engine moves, `PH` holds a phase whose promise holds, and the length is honest. -/
structure State.Running (s : State) (p : Phase) : Prop where
  ph : s.ph = p.code
  ok : s.PhaseOk p
  filled : s.Filled
  alone : s.schedule = []

theorem State.popMove_of_alone {s : State} (h : s.schedule = []) : s.popMove = s := by
  rw [popMove, h, List.tail_nil, ← h, setSchedule_self]

/-- Where only the engine moves, a step is the operation of the phase. -/
theorem step_eq_exec {s : State} {i : Instr} {p : Phase} (hp : phaseOf i = some p) (hph : s.ph = p.code)
    (halone : s.schedule = []) : step s = exec i s := by
  rw [step_of_engineTurn_instr (.inl halone) (hph ▸ decode_of_phaseOf hp), State.popMove_of_alone halone]

/-- An honest state in a phase with an operation goes on to an honest state. -/
theorem State.Running.exec_next {s : State} {i : Instr} {p : Phase} (h : s.Running p) (hp : phaseOf i = some p) :
    ∃ t, step s = .next t ∧ exec i s = .next t ∧ t.Running (nextPhase s p) := by
  obtain ⟨t, ht⟩ := completes_exec_of_filled hp h.ok h.filled
  exact ⟨t, (step_eq_exec hp h.ph h.alone).trans ht, ht, exec_ph hp ht, exec_phaseOk hp ht h.ok,
    exec_filled hp ht h.filled, (exec_schedule ht).trans h.alone⟩

/-! ### The loop (R133) -/

/-- The phase before block `k` of a length: BLOCK while one is left, then SQUASH. -/
def loopPhase (n k : Nat) : Phase := if k < n / 32 then .block else .squash

/-- Block `k` leads to the phase before block `k + 1`. -/
theorem nextPhase_loopPhase {s : State} {k : Nat} (hk : k < s.lenq.toNat / 32) (hoff : s.off.toNat = 32 * k) :
    nextPhase s .block = loopPhase s.lenq.toNat (k + 1) := by
  have htest : s.off.toNat + 32 + 32 ≤ s.lenq.toNat ↔ k + 1 < s.lenq.toNat / 32 := by omega
  rw [nextPhase_block (by omega), loopPhase]
  simp only [htest]

/-- Before block `k` the phase is `loopPhase` and `OFF = 32 k`: induction on `k`, one BLOCK at a time. -/
theorem loop_runs {s : State} (h : s.Running .block) (hoff : s.off = 0) {k : Nat} (hk : k ≤ s.lenq.toNat / 32) :
    ∃ t, runs k s = .next t ∧ t.Running (loopPhase s.lenq.toNat k) ∧ t.off.toNat = 32 * k ∧ t.lenq = s.lenq := by
  induction k with
  | zero =>
    obtain ⟨hlong, -, -⟩ := h.ok
    refine ⟨s, rfl, ?_, by rw [hoff]; rfl, rfl⟩
    rwa [loopPhase, if_pos (by omega)]
  | succ k ih =>
    obtain ⟨t, hrun, ht, htoff, htlenq⟩ := ih (by omega)
    rw [loopPhase, if_pos (by omega)] at ht
    obtain ⟨u, hstep, hexec, hu⟩ := ht.exec_next (i := .block) rfl
    rw [nextPhase_loopPhase (by rw [htlenq]; omega) htoff, htlenq] at hu
    obtain ⟨-, huoff⟩ := exec_block_off hexec
    refine ⟨u, by rw [runs_succ_last, hrun]; exact hstep, hu, by omega,
      (exec_lenq_seedq_draws hexec (by decide) (by decide)).1.trans htlenq⟩

/-- Settles O55: the phase before each block and after the last one by `loop_runs`. -/
theorem loopRunsLengthDiv32Blocks : Obligations.LoopRunsLengthDiv32Blocks := by
  intro s hph hoff hlong hfilled halone
  have h : s.Running .block := ⟨hph, ⟨hlong, by rw [hoff]; rfl, by rw [hoff]; exact hlong.le⟩, hfilled, halone⟩
  refine ⟨fun k hk => ?_, ?_⟩
  · obtain ⟨t, hrun, ht, htoff, -⟩ := loop_runs h hoff hk.le
    rw [loopPhase, if_pos hk] at ht
    exact ⟨t, hrun, ht.ph, htoff⟩
  · obtain ⟨t, hrun, ht, htoff, htlenq⟩ := loop_runs h hoff le_rfl
    rw [loopPhase, if_neg (lt_irrefl _)] at ht
    exact ⟨t, hrun, ht.ph, htoff, by rw [htlenq, htoff]; omega⟩

end Sys2Proof.Machine
end

section
/-! `H` taken apart (45_finalization R174): its loop by rounds, and its tail by the number of bytes that remain. -/

namespace Sys2Proof.Machine

/-! ### The loop -/

/-- Rounds beyond those the input has are not used: one block is done per round. -/
theorem hashBlocks_of_enough (prime : Vector Word 7) (data : List Byte) {f off : Nat} (x : HashWords)
    (hblock : off + 32 ≤ data.length) (hf : (data.length - off) / 32 ≤ f) :
    hashBlocks prime data f off x = hashBlocks prime data ((data.length - off) / 32) off x := by
  induction f generalizing off x with
  | zero => omega
  | succ f ih =>
    rw [show (data.length - off) / 32 = (data.length - (off + 32)) / 32 + 1 by omega]
    simp only [hashBlocks]
    split
    · rfl
    · exact ih _ (by omega) (by omega)

/-! ### The tail, by the bytes that remain -/

section Tail

variable (prime : Vector Word 7) (data : List Byte) {r : Nat} (off : Nat) (a b : Word)

theorem hashTail_zero : hashTail prime data 0 off a b = (a, b) := rfl

/-- The partial word is all that remains. -/
theorem hashTail_of_one_word (hlo : 1 ≤ r) (hhi : r ≤ 8) :
    hashTail prime data r off a b =
      ((hashMixup b a (hashInputWord data off r) prime[1]).2, (hashMixup b a (hashInputWord data off r) prime[1]).1) := by
  have hk : (if r % 8 ≠ 0 then r % 8 else 8) = r := by split_ifs <;> omega
  simp (disch := omega) only [hashTail, if_pos, if_neg, hk]

/-- With more than one word left, the first line that applies takes a full word, and the lines after it are those of a tail
eight bytes shorter. -/
theorem hashTail_of_two_words (hlo : 9 ≤ r) (hhi : r ≤ 16) :
    hashTail prime data r off a b =
      hashTail prime data (r - 8) (off + 8) (hashMixup a b (hashInputWord data off 8) prime[2]).1
        (hashMixup a b (hashInputWord data off 8) prime[2]).2 := by
  have hmod : (r - 8) % 8 = r % 8 := by omega
  simp (disch := omega) only [hashTail, if_pos, if_neg, hmod]

theorem hashTail_of_three_words (hlo : 17 ≤ r) (hhi : r ≤ 24) :
    hashTail prime data r off a b =
      hashTail prime data (r - 8) (off + 8) (hashMixup b a (hashInputWord data off 8) prime[3]).2
        (hashMixup b a (hashInputWord data off 8) prime[3]).1 := by
  have hmod : (r - 8) % 8 = r % 8 := by omega
  simp (disch := omega) only [hashTail, if_pos, if_neg, hmod]

theorem hashTail_of_four_words (hlo : 25 ≤ r) (hhi : r ≤ 32) :
    hashTail prime data r off a b =
      hashTail prime data (r - 8) (off + 8) (hashMixup a b (hashInputWord data off 8) prime[4]).1
        (hashMixup a b (hashInputWord data off 8) prime[4]).2 := by
  have hmod : (r - 8) % 8 = r % 8 := by omega
  simp (disch := omega) only [hashTail, if_pos, if_neg, hmod]

end Tail

end Sys2Proof.Machine
end

section
/-! The machine computes `H` (45_finalization R174, R175). In each phase the state holds what is left of `H`: the digest
still to come, and the number of operations still to run. Every operation keeps the first and lowers the second by one. -/

namespace Sys2Proof.Machine

/-! ### The input -/

/-- The latched length is the input's, and the buffer holds its bytes. -/
structure State.HoldsInput (s : State) (data : List Byte) : Prop where
  length : s.lenq.toNat = data.length
  bytes : Memory.holds s.buf data

theorem State.HoldsInput.filled {s : State} {data : List Byte} (h : s.HoldsInput data) : s.Filled := by
  intro i hi
  rw [h.length] at hi
  rw [h.bytes i hi, List.getElem?_eq_getElem hi]
  rfl

/-- A read that answers gives the word of the input at its offset. -/
theorem State.HoldsInput.word_of_memRead {s : State} {data : List Byte} (h : s.HoldsInput data) {addr w : Word} {n : Nat}
    (hw : memRead s addr n = .next w) : w = hashInputWord data addr.toNat n := by
  obtain ⟨hle, vs, hvs, rfl⟩ := (memRead_eq_next_iff ..).mp hw
  rw [Memory.readBytes_of_holds h.bytes (h.length ▸ hle)] at hvs
  obtain rfl := Option.some.inj hvs
  rfl

theorem State.HoldsInput.exec {s t : State} {data : List Byte} (h : s.HoldsInput data) {i : Instr} {p : Phase}
    (hp : phaseOf i = some p) (hexec : exec i s = .next t) : t.HoldsInput data := by
  obtain ⟨hstart, hreset⟩ := ne_start_ne_reset_of_phaseOf hp
  exact ⟨(exec_lenq_seedq_draws hexec hstart hreset).1 ▸ h.length, exec_buf hexec ▸ h.bytes⟩

/-! ### What is left of `H` -/

/-- The four accumulators as the words of `H`. -/
def State.words (s : State) : HashWords := { a := s.a, b := s.b, c := s.c, d := s.d }

/-- `H` from the tail on, with `r` bytes left from an offset. -/
def digestFromTail (prime : Vector Word 7) (data : List Byte) (r off : Nat) (a b : Word) : Word :=
  let t := hashTail prime data r off a b
  hashFinal prime t.1 t.2

/-- `H` from the end of the loop on: the fold of `c, d` into `a, b`, then the tail. -/
def digestFromSquash (prime : Vector Word 7) (data : List Byte) (x : HashWords) (off : Nat) : Word :=
  digestFromTail prime data (data.length % 32) off (bxor x.a (mullo prime[6] (add x.c (rotr x.d 23))))
    (bxor x.b (mullo prime[5] (add (rotr x.c 19) x.d)))

/-- `H` from a block on. -/
def digestFromBlock (prime : Vector Word 7) (data : List Byte) (x : HashWords) (off : Nat) : Word :=
  let l := hashBlocks prime data ((data.length - off) / 32) off x
  digestFromSquash prime data l.1 l.2

/-- The digest a state is going to have in DONE, by its phase. -/
def pendingDigest (data : List Byte) (s : State) : Phase → Word
  | .init => digestOf s.prime data s.seedq
  | .block => digestFromBlock s.prime data s.words s.off.toNat
  | .squash => digestFromSquash s.prime data s.words s.off.toNat
  | .dispatch | .mix4 | .mix3 | .mix2 | .mix1 | .final =>
    digestFromTail s.prime data (data.length - s.off.toNat) s.off.toNat s.a s.b
  | .done | .idle => s.digest

/-- The operations a state has before it until DONE, by its phase (R175). -/
def operationsLeft (data : List Byte) (s : State) : Phase → Nat
  | .init => operationCount data.length
  | .block => 3 + (data.length - s.off.toNat) / 32 + (data.length % 32 + 7) / 8
  | .squash => 3 + (data.length % 32 + 7) / 8
  | .dispatch => 2 + (data.length - s.off.toNat + 7) / 8
  | .mix4 | .mix3 | .mix2 | .mix1 | .final => 1 + (data.length - s.off.toNat + 7) / 8
  | .done | .idle => 0

/-! ### The forms of `H` at the phases -/

/-- On the long path the loop runs over every whole block. -/
theorem digestOf_of_long (prime : Vector Word 7) {data : List Byte} (seed : Word) (h : 32 < data.length) :
    digestOf prime data seed =
      digestFromBlock prime data (hashInit (BitVec.ofNat 64 data.length) seed) 0 := by
  rw [digestOf, if_pos h, hashBlocks_of_enough prime data _ (by omega) (by omega)]
  rfl

theorem digestOf_of_short (prime : Vector Word 7) {data : List Byte} (seed : Word) (h : ¬ 32 < data.length) :
    digestOf prime data seed = digestFromTail prime data data.length 0 seed (BitVec.ofNat 64 data.length) := by
  rw [digestOf, if_neg h]
  rfl

/-- After a block that leaves another whole one, `H` goes on with that. -/
theorem digestFromBlock_of_more (prime : Vector Word 7) {data : List Byte} (x : HashWords) {off : Nat}
    (h : off + 32 + 32 ≤ data.length) :
    digestFromBlock prime data x off = digestFromBlock prime data (hashBlock prime data off x) (off + 32) := by
  have hrounds : (data.length - off) / 32 = (data.length - (off + 32)) / 32 + 1 := by omega
  rw [digestFromBlock, hrounds, hashBlocks, if_neg (by omega)]
  rfl

/-- After the last whole block `H` leaves the loop. -/
theorem digestFromBlock_of_last (prime : Vector Word 7) {data : List Byte} (x : HashWords) {off : Nat}
    (h : off + 32 ≤ data.length) (hlast : ¬ off + 32 + 32 ≤ data.length) :
    digestFromBlock prime data x off = digestFromSquash prime data (hashBlock prime data off x) (off + 32) := by
  have hrounds : (data.length - off) / 32 = 0 + 1 := by omega
  rw [digestFromBlock, hrounds, hashBlocks, if_pos (by omega)]

/-- The butterfly on a block's words is the body of the loop (42_block_loop R131). -/
theorem butterfly_words (s : State) (data : List Byte) (off : Nat) :
    (butterfly s (hashInputWord data off 8) (hashInputWord data (off + 8) 8) (hashInputWord data (off + 16) 8)
      (hashInputWord data (off + 24) 8)).words = hashBlock s.prime data off s.words := rfl

/-- The accumulators after BLOCK. -/
theorem exec_block_words {s t : State} {data : List Byte} (h : exec .block s = .next t) (hin : s.HoldsInput data) :
    t.words = hashBlock s.prime data s.off.toNat s.words := by
  obtain ⟨hle, w0, w1, w2, w3, h0, h1, h2, h3, rfl⟩ := execBlock_next h
  have hat : ∀ k, k ≤ 32 → (add s.off (BitVec.ofNat 64 k)).toNat = s.off.toNat + k := fun k hk =>
    toNat_add_of_le (n := s.lenq) (by omega)
  obtain rfl := hin.word_of_memRead h0
  obtain rfl := hin.word_of_memRead h1
  obtain rfl := hin.word_of_memRead h2
  obtain rfl := hin.word_of_memRead h3
  rw [← butterfly_words, ← hat 8 (by decide), ← hat 16 (by decide), ← hat 24 (by decide)]
  simp [State.words]

/-! ### Each operation keeps the digest to come -/

section Keeps

variable {s t : State} {data : List Byte}

theorem init_keeps_pendingDigest (h : exec .init s = .next t) (hin : s.HoldsInput data) :
    pendingDigest data t (nextPhase s .init) = pendingDigest data s .init := by
  have hlenq : BitVec.ofNat 64 data.length = s.lenq := by rw [← hin.length, BitVec.ofNat_toNat, BitVec.setWidth_eq]
  rw [nextPhase_init, pendingDigest]
  by_cases hl : 32 < s.lenq.toNat
  · obtain rfl := Host.Outcome.next.inj ((exec_init_of_long hl).symm.trans h)
    rw [if_pos hl, digestOf_of_long _ _ (hin.length ▸ hl), hlenq]
    rfl
  · obtain rfl := Host.Outcome.next.inj ((exec_init_of_short hl).symm.trans h)
    rw [if_neg hl, digestOf_of_short _ _ (hin.length ▸ hl), hlenq]
    rfl

theorem block_keeps_pendingDigest (h : exec .block s = .next t) (hin : s.HoldsInput data) :
    pendingDigest data t (nextPhase s .block) = pendingDigest data s .block := by
  obtain ⟨hle, hoff⟩ := exec_block_off h
  rw [nextPhase_block hle, hin.length]
  rw [hin.length] at hle
  split
  case isTrue hmore =>
    rw [pendingDigest, pendingDigest, exec_prime h, exec_block_words h hin, hoff, digestFromBlock_of_more _ _ hmore]
  case isFalse hlast =>
    rw [pendingDigest, pendingDigest, exec_prime h, exec_block_words h hin, hoff,
      digestFromBlock_of_last _ _ hle hlast]

theorem squash_keeps_pendingDigest (h : exec .squash s = .next t) (hin : s.HoldsInput data) (hok : s.PhaseOk .squash) :
    pendingDigest data t .dispatch = pendingDigest data s .squash := by
  have hrest : data.length - s.off.toNat = data.length % 32 := by
    obtain ⟨-, hend⟩ := hok
    rw [hin.length] at hend
    omega
  rw [pendingDigest, pendingDigest, digestFromSquash, exec_off h (.inl rfl), hrest, exec_prime h]
  cases exec_next_cases h
  rfl

/-- DISPATCH only picks the first line of the tail that applies. -/
theorem dispatch_keeps_pendingDigest (h : exec .dispatch s = .next t) :
    pendingDigest data t (firstTailPhase s.res) = pendingDigest data s .dispatch := by
  cases exec_next_cases h
  unfold firstTailPhase
  split_ifs <;> rfl

/-- Before a tail operation with `m` left, the bytes that remain of the input (44_tail_dispatch R159). -/
theorem State.TailOk.remaining {m : Nat} (hok : s.TailOk m) (hin : s.HoldsInput data) :
    8 * (m - 1) < data.length - s.off.toNat ∧ data.length - s.off.toNat ≤ 8 * m := by
  obtain ⟨-, -, -, hlo, hhi⟩ := hok
  rw [hin.length] at hlo hhi
  exact ⟨hlo, hhi⟩

/-- A tail whose first full word is mixed in goes on eight bytes further. -/
theorem digestFromTail_after_full_word (prime : Vector Word 7) {a b a' b' : Word} {m : Nat} (hok : s.TailOk m)
    (hm : 2 ≤ m)
    (htail : hashTail prime data (data.length - s.off.toNat) s.off.toNat a b =
      hashTail prime data (data.length - s.off.toNat - 8) (s.off.toNat + 8) a' b') :
    digestFromTail prime data (data.length - (s.off + 8).toNat) (s.off + 8).toNat a' b' =
      digestFromTail prime data (data.length - s.off.toNat) s.off.toNat a b := by
  have hto : (s.off + 8).toNat = s.off.toNat + 8 := toNat_add_of_le (k := 8) (hok.full_word hm)
  rw [digestFromTail, digestFromTail, htail, hto, Nat.sub_sub]

theorem mix4_keeps_pendingDigest (h : exec .mix4 s = .next t) (hin : s.HoldsInput data) (hok : s.PhaseOk .mix4) :
    pendingDigest data t .mix3 = pendingDigest data s .mix4 := by
  obtain ⟨hlo, hhi⟩ := State.TailOk.remaining hok hin
  cases exec_next_cases h with
  | mix4 hw =>
    obtain rfl := hin.word_of_memRead hw
    exact digestFromTail_after_full_word _ hok (by decide) (hashTail_of_four_words _ _ _ _ _ hlo hhi)

theorem mix3_keeps_pendingDigest (h : exec .mix3 s = .next t) (hin : s.HoldsInput data) (hok : s.PhaseOk .mix3) :
    pendingDigest data t .mix2 = pendingDigest data s .mix3 := by
  obtain ⟨hlo, hhi⟩ := State.TailOk.remaining hok hin
  cases exec_next_cases h with
  | mix3 hw =>
    obtain rfl := hin.word_of_memRead hw
    exact digestFromTail_after_full_word _ hok (by decide) (hashTail_of_three_words _ _ _ _ _ hlo hhi)

theorem mix2_keeps_pendingDigest (h : exec .mix2 s = .next t) (hin : s.HoldsInput data) (hok : s.PhaseOk .mix2) :
    pendingDigest data t .mix1 = pendingDigest data s .mix2 := by
  obtain ⟨hlo, hhi⟩ := State.TailOk.remaining hok hin
  cases exec_next_cases h with
  | mix2 hw =>
    obtain rfl := hin.word_of_memRead hw
    exact digestFromTail_after_full_word _ hok (by decide) (hashTail_of_two_words _ _ _ _ _ hlo hhi)

theorem final_off_eq_length (hok : s.PhaseOk .final) (hin : s.HoldsInput data) : s.off.toNat = data.length := by
  have hfinal : s.off = s.lenq := hok
  rw [hfinal, hin.length]

/-- MIX1 takes all that remains. -/
theorem mix1_off_eq_length (h : exec .mix1 s = .next t) (hin : s.HoldsInput data) (hok : s.PhaseOk .mix1) :
    t.off.toNat = data.length :=
  final_off_eq_length (exec_phaseOk (p := .mix1) rfl h hok) (hin.exec (p := .mix1) rfl h)

theorem mix1_keeps_pendingDigest (h : exec .mix1 s = .next t) (hin : s.HoldsInput data) (hok : s.PhaseOk .mix1) :
    pendingDigest data t .final = pendingDigest data s .mix1 := by
  have hk : partialLength s.res = data.length - s.off.toNat := by
    have := State.TailOk.off_add_partialLength hok
    rw [hin.length] at this
    omega
  obtain ⟨hlo, hhi⟩ := State.TailOk.remaining hok hin
  rw [pendingDigest, pendingDigest, mix1_off_eq_length h hin hok, Nat.sub_self, digestFromTail, digestFromTail,
    hashTail_zero, hashTail_of_one_word _ _ _ _ _ hlo hhi, ← hk]
  cases exec_next_cases h with
  | mix1 hw =>
    obtain rfl := hin.word_of_memRead hw
    rfl

theorem final_keeps_pendingDigest (h : exec .final s = .next t) (hok : s.PhaseOk .final) (hin : s.HoldsInput data) :
    pendingDigest data t .done = pendingDigest data s .final := by
  rw [pendingDigest, pendingDigest, final_off_eq_length hok hin, Nat.sub_self, digestFromTail, hashTail_zero]
  cases exec_next_cases h
  rfl

/-- Every operation keeps the digest to come. -/
theorem exec_keeps_pendingDigest {i : Instr} {p : Phase} (hp : phaseOf i = some p) (h : exec i s = .next t)
    (hok : s.PhaseOk p) (hin : s.HoldsInput data) :
    pendingDigest data t (nextPhase s p) = pendingDigest data s p := by
  cases i <;> cases hp
  case init => exact init_keeps_pendingDigest h hin
  case block => exact block_keeps_pendingDigest h hin
  case squash => exact squash_keeps_pendingDigest h hin hok
  case dispatch => exact dispatch_keeps_pendingDigest h
  case mix4 => exact mix4_keeps_pendingDigest h hin hok
  case mix3 => exact mix3_keeps_pendingDigest h hin hok
  case mix2 => exact mix2_keeps_pendingDigest h hin hok
  case mix1 => exact mix1_keeps_pendingDigest h hin hok
  case final => exact final_keeps_pendingDigest h hok hin

/-! ### Each operation is one of those left (R175) -/

theorem init_lowers_operationsLeft (h : exec .init s = .next t) (hin : s.HoldsInput data) :
    operationsLeft data s .init = operationsLeft data t (nextPhase s .init) + 1 := by
  have hoff : t.off.toNat = 0 := by rw [exec_init_off h]; rfl
  rw [nextPhase_init, hin.length]
  by_cases hl : 32 < data.length
  · rw [if_pos hl, operationsLeft, operationsLeft, hoff, operationCount, residualLength_of_gt hl, if_neg (by omega)]
    omega
  · have hshort : data.length ≤ 32 := Nat.le_of_not_lt hl
    rw [if_neg hl, operationsLeft, operationsLeft, hoff, operationCount, residualLength_of_le hshort, if_pos hshort]
    omega

theorem block_lowers_operationsLeft (h : exec .block s = .next t) (hin : s.HoldsInput data) :
    operationsLeft data s .block = operationsLeft data t (nextPhase s .block) + 1 := by
  obtain ⟨hle, hoff⟩ := exec_block_off h
  rw [nextPhase_block hle, hin.length, operationsLeft]
  rw [hin.length] at hle
  split
  case isTrue hmore =>
    rw [operationsLeft, hoff]
    omega
  case isFalse hlast =>
    rw [operationsLeft]
    omega

theorem squash_lowers_operationsLeft (h : exec .squash s = .next t) (hin : s.HoldsInput data) (hok : s.PhaseOk .squash) :
    operationsLeft data s .squash = operationsLeft data t .dispatch + 1 := by
  obtain ⟨-, hend⟩ := hok
  rw [hin.length] at hend
  rw [operationsLeft, operationsLeft, exec_off h (.inl rfl)]
  omega

/-- Whichever line of the tail applies first, FINAL and one operation per word remain. -/
theorem operationsLeft_firstTailPhase (r : BitVec 6) :
    operationsLeft data t (firstTailPhase r) = 1 + (data.length - t.off.toNat + 7) / 8 := by
  unfold firstTailPhase
  split_ifs <;> rfl

theorem dispatch_lowers_operationsLeft (h : exec .dispatch s = .next t) :
    operationsLeft data s .dispatch = operationsLeft data t (firstTailPhase s.res) + 1 := by
  rw [operationsLeft_firstTailPhase, operationsLeft, exec_off h (.inr (.inl rfl))]
  omega

/-- A full word of the tail takes eight of the bytes that remain. -/
theorem tail_after_full_word {m : Nat} (hok : s.TailOk m) (hm : 2 ≤ m) (hin : s.HoldsInput data)
    (hoff : t.off = s.off + 8) :
    1 + (data.length - s.off.toNat + 7) / 8 = 1 + (data.length - t.off.toNat + 7) / 8 + 1 := by
  have hto : (s.off + 8).toNat = s.off.toNat + 8 := toNat_add_of_le (k := 8) (hok.full_word hm)
  obtain ⟨hlo, -⟩ := hok.remaining hin
  rw [hoff, hto]
  omega

theorem mix1_lowers_operationsLeft (h : exec .mix1 s = .next t) (hin : s.HoldsInput data) (hok : s.PhaseOk .mix1) :
    operationsLeft data s .mix1 = operationsLeft data t .final + 1 := by
  have hend : t.off.toNat = data.length := mix1_off_eq_length h hin hok
  obtain ⟨hlo, hhi⟩ := State.TailOk.remaining hok hin
  rw [operationsLeft, operationsLeft, hend]
  omega

theorem final_lowers_operationsLeft (hok : s.PhaseOk .final) (hin : s.HoldsInput data) :
    operationsLeft data s .final = operationsLeft data t .done + 1 := by
  rw [operationsLeft, operationsLeft, final_off_eq_length hok hin, Nat.sub_self]

/-- Every operation is one of those left. -/
theorem exec_lowers_operationsLeft {i : Instr} {p : Phase} (hp : phaseOf i = some p) (h : exec i s = .next t)
    (hok : s.PhaseOk p) (hin : s.HoldsInput data) :
    operationsLeft data s p = operationsLeft data t (nextPhase s p) + 1 := by
  cases i <;> cases hp
  case init => exact init_lowers_operationsLeft h hin
  case block => exact block_lowers_operationsLeft h hin
  case squash => exact squash_lowers_operationsLeft h hin hok
  case dispatch => exact dispatch_lowers_operationsLeft h
  case mix4 | mix3 | mix2 => exact tail_after_full_word hok (by decide) hin (by cases exec_next_cases h; simp)
  case mix1 => exact mix1_lowers_operationsLeft h hin hok
  case final => exact final_lowers_operationsLeft hok hin

end Keeps

/-! ### The whole invocation -/

/-- No operation leads to IDLE. -/
theorem nextPhase_ne_idle (s : State) {p : Phase} (hidle : p ≠ .idle) (hdone : p ≠ .done) : nextPhase s p ≠ .idle := by
  have key : ∀ e ∈ phaseEdges, e.2 ≠ .idle := by decide
  exact key _ (nextPhase_mem_phaseEdges s hidle hdone)

theorem State.Running.busy {s : State} {p : Phase} (h : s.Running p) (hidle : p ≠ .idle) (hdone : p ≠ .done) :
    s.busy = true := by
  rw [busy_eq_true_iff, h.ph]
  exact ⟨mt eq_of_phase_code_eq hidle, mt eq_of_phase_code_eq hdone⟩

/-- The first operation of a run that is not over: the state after it has the same digest to come and one operation
fewer before it. -/
theorem State.Running.first_operation {data : List Byte} {s : State} {p : Phase} (h : s.Running p)
    (hin : s.HoldsInput data) (hidle : p ≠ .idle) (hdone : p ≠ .done) :
    ∃ t, step s = .next t ∧ t.Running (nextPhase s p) ∧ t.HoldsInput data ∧ nextPhase s p ≠ .idle ∧
      pendingDigest data t (nextPhase s p) = pendingDigest data s p ∧
      operationsLeft data s p = operationsLeft data t (nextPhase s p) + 1 := by
  obtain ⟨i, hp⟩ := exists_phaseOf_eq_some hidle hdone
  obtain ⟨t, hstep, hexec, ht⟩ := h.exec_next hp
  exact ⟨t, hstep, ht, hin.exec hp hexec, nextPhase_ne_idle s hidle hdone, exec_keeps_pendingDigest hp hexec h.ok hin,
    exec_lowers_operationsLeft hp hexec h.ok hin⟩

/-- From an honest state the engine reaches DONE after the operations left, busy until then, with the digest to come:
induction on the operations left. -/
theorem runs_to_done {data : List Byte} {n : Nat} {s : State} {p : Phase} (h : s.Running p) (hin : s.HoldsInput data)
    (hidle : p ≠ .idle) (hn : operationsLeft data s p = n) :
    (∀ k < n, ∃ t, runs k s = .next t ∧ t.busy = true) ∧
      ∃ t, runs n s = .next t ∧ t.Running .done ∧ t.digest = pendingDigest data s p := by
  induction n generalizing s p with
  | zero =>
    have hdone : p = .done := by
      by_contra hdone
      obtain ⟨_, _, _, _, _, _, hleft⟩ := h.first_operation hin hidle hdone
      omega
    subst hdone
    exact ⟨fun k hk => absurd hk (Nat.not_lt_zero k), s, rfl, h, rfl⟩
  | succ n ih =>
    have hdone : p ≠ .done := by
      rintro rfl
      cases hn
    obtain ⟨t, hstep, ht, hint, hnext, hdigest, hleft⟩ := h.first_operation hin hidle hdone
    obtain ⟨hbusy, u, hrun, hu, hudigest⟩ := ih ht hint hnext (by omega)
    have hrest : ∀ k, runs (k + 1) s = runs k t := fun k => by rw [runs_succ, hstep, andThen_next]
    refine ⟨fun k hk => ?_, u, (hrest n).trans hrun, hu, hudigest.trans hdigest⟩
    cases k with
    | zero => exact ⟨s, rfl, h.busy hidle hdone⟩
    | succ k =>
      rw [hrest]
      exact hbusy k (by omega)

section Invocation

variable {s : State} {data : List Byte} {seed : Word}

theorem State.Invokes.holdsInput (h : s.Invokes data seed) : s.HoldsInput data := by
  obtain ⟨hlt, -, -, hlenq, hbytes, -⟩ := h
  refine ⟨?_, hbytes⟩
  rw [hlenq, BitVec.toNat_ofNat, Nat.mod_eq_of_lt hlt]

/-- An invocation begins in INIT, which promises nothing. -/
theorem State.Invokes.running (h : s.Invokes data seed) : s.Running .init := by
  have hin := h.holdsInput
  obtain ⟨-, hph, -, -, -, halone⟩ := h
  exact ⟨hph, trivial, hin.filled, halone⟩

/-- The run of an invocation: busy for the rule's count of operations, then in DONE with `H` of the input and the seed. -/
theorem State.Invokes.runs_to_done (h : s.Invokes data seed) :
    (∀ k < operationCount data.length, ∃ t, runs k s = .next t ∧ t.busy = true) ∧
      ∃ t, runs (operationCount data.length) s = .next t ∧ t.Running .done ∧ t.digest = digestOf s.prime data seed := by
  have hrun := Machine.runs_to_done h.running h.holdsInput (by decide) rfl
  obtain ⟨-, -, hseed, -⟩ := h
  rwa [pendingDigest, hseed] at hrun

end Invocation

theorem State.digestBytesOut_of_done {s : State} (h : s.done = true) :
    s.digestBytesOut = some (serialize Config.digestOrder s.digest) := by
  rw [digestBytesOut, digestOut, if_pos h]
  rfl

/-- Settles O57: the digest to come at INIT is `H`; DONE promises `OFF = LENQ` and opens the output. -/
theorem invocationComputesHash : Obligations.InvocationComputesHash := by
  intro s data seed h
  obtain ⟨-, t, hrun, ht, hdigest⟩ := h.runs_to_done
  refine ⟨t, hrun, ht.ph, hdigest, ?_, ht.ok⟩
  rw [State.digestBytesOut_of_done ((State.done_eq_true_iff t).mpr ht.ph), hdigest]
  rfl

/-- Settles O58: the operations left at INIT are the rule's count. -/
theorem invocationTakesOperationCount : Obligations.InvocationTakesOperationCount := by
  intro s data seed h
  obtain ⟨hbusy, t, hrun, ht, -⟩ := h.runs_to_done
  exact ⟨hbusy, t, hrun, (State.done_eq_true_iff t).mpr ht.ph⟩

/-- Settles O56: START is accepted while not busy and latches the pins, which carry the seed and the input's length. -/
theorem startBeginsTheInvocation : Obligations.StartBeginsTheInvocation := by
  intro s p data hlt hbusy hs hreset hstart hlen hbytes
  exact ⟨_, (step_of_host_instr hs ((decode_hostCommand_eq_start_iff p).mpr ⟨hreset, hstart⟩)).trans
    (exec_start_of_not_busy hbusy), ⟨hlt, rfl, rfl, hlen, hbytes, rfl⟩, rfl⟩

end Sys2Proof.Machine
end

section
/-! Nothing carries over (10_state R35): two runs that agree on the registers their phase still reads stay in step. -/

namespace Sys2Proof.Machine

/-! ### Two computations that end alike -/

/-- Two computations that give results in a relation, or stop by the same name. -/
inductive Alike {α β : Type} (R : α → β → Prop) :
    Host.Outcome α Fault Refusal → Host.Outcome β Fault Refusal → Prop where
  | next {v : α} {w : β} (h : R v w) : Alike R (.next v) (.next w)
  | fault (r : Fault) : Alike R (.fault r) (.fault r)
  | refused (r : Refusal) : Alike R (.refused r) (.refused r)

section Alike

variable {α β γ δ : Type} {R : α → β → Prop} {x : Host.Outcome α Fault Refusal} {y : Host.Outcome β Fault Refusal}

theorem Alike.andThen {Q : γ → δ → Prop} {f : α → Host.Outcome γ Fault Refusal} {g : β → Host.Outcome δ Fault Refusal}
    (h : Alike R x y) (hfg : ∀ v w, R v w → Alike Q (f v) (g w)) : Alike Q (andThen x f) (andThen y g) := by
  cases h with
  | next hvw => exact hfg _ _ hvw
  | fault r => exact .fault r
  | refused r => exact .refused r

/-- The same computation on both sides, followed by what depends on its result. -/
theorem Alike.andThen_same {Q : γ → δ → Prop} {f : α → Host.Outcome γ Fault Refusal}
    {g : α → Host.Outcome δ Fault Refusal} {z : Host.Outcome α Fault Refusal} (h : x = z)
    (hfg : ∀ v, Alike Q (f v) (g v)) : Alike Q (Machine.andThen x f) (Machine.andThen z g) := by
  subst h
  cases x with
  | next v => exact hfg v
  | fault r => exact .fault r
  | refused r => exact .refused r

/-- The relation may be made stronger by what is known of the results. -/
theorem Alike.imp {Q : α → β → Prop} (h : Alike R x y) (hQ : ∀ v w, x = .next v → y = .next w → R v w → Q v w) :
    Alike Q x y := by
  cases h with
  | next hvw => exact .next (hQ _ _ rfl rfl hvw)
  | fault r => exact .fault r
  | refused r => exact .refused r

end Alike

/-! ### Two states that agree on what their phase reads -/

/-- Agreement on the registers of the loop. -/
structure SameLoop (s s' : State) : Prop where
  a : s.a = s'.a
  b : s.b = s'.b
  c : s.c = s'.c
  d : s.d = s'.d
  off : s.off = s'.off

/-- Agreement on the registers of the tail: `c` and `d` are not read any more. -/
structure SameTail (s s' : State) : Prop where
  a : s.a = s'.a
  b : s.b = s'.b
  off : s.off = s'.off
  res : s.res = s'.res

/-- Agreement on the registers that are read from a phase on, besides `LENQ` and the primes. -/
def SameLive (s s' : State) : Phase → Prop
  | .init => s.seedq = s'.seedq
  | .block | .squash => SameLoop s s'
  | .dispatch | .mix4 | .mix3 | .mix2 | .mix1 | .final => SameTail s s'
  | .done => s.digest = s'.digest
  | .idle => True

/-- Two runs in step: the engine alone moves, and all that is read from the phase on agrees. -/
structure InStep (p : Phase) (s s' : State) : Prop where
  ph : s.ph = p.code
  ph' : s'.ph = p.code
  alone : s.schedule = []
  alone' : s'.schedule = []
  lenq : s.lenq = s'.lenq
  prime : s.prime = s'.prime
  buf : s.buf = s'.buf
  live : SameLive s s' p

section Operations

variable {s s' : State}

theorem memRead_same {p : Phase} (h : InStep p s s') {addr addr' : Word} (haddr : addr = addr') (n : Nat) :
    memRead s addr n = memRead s' addr' n :=
  haddr ▸ memRead_congr h.lenq h.buf addr n

theorem nextPhase_same {p : Phase} (h : InStep p s s') : nextPhase s p = nextPhase s' p := by
  have hlive := h.live
  cases p with
  | init => simp only [nextPhase, h.lenq]
  | block => simp only [nextPhase, h.lenq, SameLoop.off hlive]
  | dispatch => simp only [nextPhase, SameTail.res hlive]
  | _ => rfl

theorem init_alike (h : InStep .init s s') :
    Alike (fun t t' => SameLive t t' (nextPhase s .init)) (exec .init s) (exec .init s') := by
  have hseed : s.seedq = s'.seedq := h.live
  by_cases hl : 32 < s.lenq.toNat
  · rw [exec_init_of_long hl, exec_init_of_long (h.lenq ▸ hl), nextPhase_init, if_pos hl]
    exact .next ⟨by simp [initLong, hseed], by simp [initLong, h.lenq], by simp [initLong, h.lenq, hseed],
      by simp [initLong, h.lenq, hseed], rfl⟩
  · rw [exec_init_of_short hl, exec_init_of_short (h.lenq ▸ hl), nextPhase_init, if_neg hl]
    exact .next ⟨by simp [initShort, hseed], by simp [initShort, h.lenq], rfl, by simp [initShort, h.lenq]⟩

theorem sameLoop_after_block (h : InStep .block s s') (w0 w1 w2 w3 : Word) :
    SameLoop (afterBlock ((butterfly s w0 w1 w2 w3).advance 32)) (afterBlock ((butterfly s' w0 w1 w2 w3).advance 32)) := by
  obtain ⟨ha, hb, hc, hd, hoff⟩ : SameLoop s s' := h.live
  constructor <;> simp [butterfly, ha, hb, hc, hd, hoff, h.prime]

theorem block_alike (h : InStep .block s s') :
    Alike (fun t t' => SameLive t t' (nextPhase s .block)) (exec .block s) (exec .block s') := by
  have hoff : s.off = s'.off := SameLoop.off h.live
  refine .andThen_same (memRead_same h hoff 8) fun w0 => .andThen_same (memRead_same h (by rw [hoff]) 8) fun w1 =>
    .andThen_same (memRead_same h (by rw [hoff]) 8) fun w2 => .andThen_same (memRead_same h (by rw [hoff]) 8) fun w3 =>
    .next ?_
  simp only [nextPhase]
  split <;> exact sameLoop_after_block h w0 w1 w2 w3

theorem squash_alike (h : InStep .squash s s') :
    Alike (fun t t' => SameLive t t' .dispatch) (exec .squash s) (exec .squash s') := by
  obtain ⟨ha, hb, hc, hd, hoff⟩ : SameLoop s s' := h.live
  rw [exec_squash, exec_squash]
  refine .next ?_
  constructor <;> simp [ha, hb, hc, hd, hoff, h.prime, h.lenq]

theorem sameLive_firstTailPhase {t t' : State} (h : SameTail t t') (r : BitVec 6) :
    SameLive t t' (firstTailPhase r) := by
  unfold firstTailPhase
  split_ifs <;> exact h

theorem sameTail_after_mix {t o : Acc} (hto : t = .a ∧ o = .b ∨ t = .b ∧ o = .a) (h : SameTail s s') (n : Nat)
    (v k : Word) (q : Phase) :
    SameTail ((mixup (s.advance n) t o v k).goto q) ((mixup (s'.advance n) t o v k).goto q) := by
  obtain ⟨ha, hb, hoff, hres⟩ := h
  rcases hto with ⟨rfl, rfl⟩ | ⟨rfl, rfl⟩ <;> constructor <;> simp [mixup, ha, hb, hoff, hres]

theorem fullWordMix_alike {p : Phase} (h : InStep p s s') (htail : SameTail s s') {t o : Acc}
    (hto : t = .a ∧ o = .b ∨ t = .b ∧ o = .a) {k k' : Word} (hk : k = k') (q : Phase) :
    Alike SameTail (andThen (fetch64 s) fun f => .next ((mixup f.2 t o f.1 k).goto q))
      (andThen (fetch64 s') fun f => .next ((mixup f.2 t o f.1 k').goto q)) := by
  subst hk
  simp only [fetch64, andThen_assoc, andThen_next]
  exact .andThen_same (memRead_same h htail.off 8) fun v => .next (sameTail_after_mix hto htail 8 v k q)

theorem partialWordMix_alike {p : Phase} (h : InStep p s s') (htail : SameTail s s') {t o : Acc}
    (hto : t = .a ∧ o = .b ∨ t = .b ∧ o = .a) {k k' : Word} (hk : k = k') (q : Phase) :
    Alike SameTail (andThen (fetchTail s) fun f => .next ((mixup f.2 t o f.1 k).goto q))
      (andThen (fetchTail s') fun f => .next ((mixup f.2 t o f.1 k').goto q)) := by
  subst hk
  simp only [fetchTail, andThen_assoc, andThen_next, htail.res]
  exact .andThen_same (memRead_same h htail.off _) fun v => .next (sameTail_after_mix hto htail _ v k q)

theorem final_alike (h : InStep .final s s') :
    Alike (fun t t' => SameLive t t' .done) (exec .final s) (exec .final s') := by
  obtain ⟨ha, hb, -, -⟩ : SameTail s s' := h.live
  rw [exec_final, exec_final]
  refine .next ?_
  show avalanche s.prime s.a s.b = avalanche s'.prime s'.a s'.b
  rw [h.prime, ha, hb]

/-- An operation gives states that agree on what the next phase reads, or stops alike. -/
theorem exec_live_alike {i : Instr} {p : Phase} (hp : phaseOf i = some p) (h : InStep p s s') :
    Alike (fun t t' => SameLive t t' (nextPhase s p)) (exec i s) (exec i s') := by
  cases i <;> cases hp
  case init => exact init_alike h
  case block => exact block_alike h
  case squash => exact squash_alike h
  case dispatch =>
    obtain ⟨ha, hb, hoff, hres⟩ : SameTail s s' := h.live
    have htail : SameTail (s.goto (firstTailPhase s.res)) (s'.goto (firstTailPhase s'.res)) := ⟨ha, hb, hoff, hres⟩
    exact .next (sameLive_firstTailPhase htail s.res)
  case mix4 => exact fullWordMix_alike h h.live (.inl ⟨rfl, rfl⟩) (by rw [h.prime]) .mix3
  case mix3 => exact fullWordMix_alike h h.live (.inr ⟨rfl, rfl⟩) (by rw [h.prime]) .mix2
  case mix2 => exact fullWordMix_alike h h.live (.inl ⟨rfl, rfl⟩) (by rw [h.prime]) .mix1
  case mix1 => exact partialWordMix_alike h h.live (.inr ⟨rfl, rfl⟩) (by rw [h.prime]) .final
  case final => exact final_alike h

/-- An operation keeps two runs in step: what no operation writes still agrees. -/
theorem exec_alike {i : Instr} {p : Phase} (hp : phaseOf i = some p) (h : InStep p s s') :
    Alike (InStep (nextPhase s p)) (exec i s) (exec i s') := by
  obtain ⟨hstart, hreset⟩ := ne_start_ne_reset_of_phaseOf hp
  refine (exec_live_alike hp h).imp fun t t' ht ht' hlive => ?_
  have hl := (exec_lenq_seedq_draws ht hstart hreset).1
  have hl' := (exec_lenq_seedq_draws ht' hstart hreset).1
  exact {
    ph := exec_ph hp ht
    ph' := nextPhase_same h ▸ exec_ph hp ht'
    alone := (exec_schedule ht).trans h.alone
    alone' := (exec_schedule ht').trans h.alone'
    lenq := by rw [hl, hl', h.lenq]
    prime := by rw [exec_prime ht, exec_prime ht', h.prime]
    buf := by rw [exec_buf ht, exec_buf ht', h.buf]
    live := hlive }

end Operations

/-! ### The runs -/

/-- In DONE the engine alone changes nothing. -/
theorem step_of_done {s : State} (hph : s.ph = Phase.done.code) (halone : s.schedule = []) : step s = .next s := by
  rw [step_of_engineTurn_quiescent (.inl halone) ((decode_phase_eq_quiescent_iff _).mpr (.inr hph)),
    State.popMove_of_alone halone]

/-- Two runs in step take a step alike. -/
theorem step_alike {s s' : State} {p : Phase} (hidle : p ≠ .idle) (h : InStep p s s') :
    Alike (fun t t' => ∃ q, q ≠ .idle ∧ InStep q t t') (step s) (step s') := by
  by_cases hdone : p = .done
  · subst hdone
    rw [step_of_done h.ph h.alone, step_of_done h.ph' h.alone']
    exact .next ⟨.done, hidle, h⟩
  · obtain ⟨i, hp⟩ := exists_phaseOf_eq_some hidle hdone
    rw [step_eq_exec hp h.ph h.alone, step_eq_exec hp h.ph' h.alone']
    exact (exec_alike hp h).imp fun _ _ _ _ ht => ⟨_, nextPhase_ne_idle s hidle hdone, ht⟩

theorem runs_alike {s s' : State} {p : Phase} (hidle : p ≠ .idle) (h : InStep p s s') (k : Nat) :
    Alike (fun t t' => ∃ q, q ≠ .idle ∧ InStep q t t') (runs k s) (runs k s') := by
  induction k with
  | zero => exact .next ⟨p, hidle, h⟩
  | succ k ih =>
    rw [runs_succ_last, runs_succ_last]
    exact ih.andThen fun _ _ ⟨_, hq, ht⟩ => step_alike hq ht

/-- Settles O59: in INIT only the seed, the length, the primes and the buffer are read; runs in step end with one digest, or
stop alike. -/
theorem nothingCarriesOver : Obligations.NothingCarriesOver := by
  intro s s' hph hph' halone halone' hseed hlenq hprime hbuf k
  have hruns := runs_alike (p := .init) (by decide) ⟨hph, hph', halone, halone', hlenq, hprime, hbuf, hseed⟩ k
  unfold runs at hruns
  generalize Host.Core.run core k s = x at hruns ⊢
  generalize Host.Core.run core k s' = y at hruns ⊢
  cases hruns with
  | next h =>
    obtain ⟨q, -, ht⟩ := h
    refine .inl ⟨_, _, rfl, rfl, ht.ph.trans ht.ph'.symm, fun hdone => ?_⟩
    obtain rfl : q = .done := eq_of_phase_code_eq (ht.ph.symm.trans hdone)
    exact ht.live
  | fault r => exact .inr (.inl ⟨r, rfl, rfl⟩)
  | refused r => exact .inr (.inr ⟨r, rfl, rfl⟩)

end Sys2Proof.Machine
end

section
/-! ROTR and MULHI (40_arithmetic R103, R105 to R107), and the accumulator updates made of them (R112(3); 44_tail_dispatch
R150, R160). -/

namespace Sys2Proof.Machine

/-! ### ROTR (R103) -/

/-- Bit `i` of a rotation comes from the right shift below `64 - n`, and from the left shift above. -/
theorem rotr_getLsbD (x : Word) {n i : Nat} (hn : n < 64) (hi : i < 64) :
    (rotr x n).getLsbD i = x.getLsbD ((i + n) % 64) := by
  rw [rotr, BitVec.getLsbD_or, BitVec.getLsbD_ushiftRight, BitVec.getLsbD_shiftLeft]
  by_cases h : i + n < 64
  · rw [Nat.mod_eq_of_lt h, Nat.add_comm n i]
    simp [hi, show i < 64 - n by omega]
  · have hwrap : (i + n) % 64 = i - (64 - n) := by omega
    rw [hwrap, BitVec.getLsbD_of_ge x (n + i) (by omega)]
    simp [hi, show ¬ i < 64 - n by omega]

theorem rotr_toNat (x : Word) (n : Nat) :
    (rotr x n).toNat = (x.toNat / 2 ^ n ||| x.toNat * 2 ^ (64 - n)) % 2 ^ 64 := by
  have hx : x.toNat / 2 ^ n < 2 ^ 64 := (Nat.div_le_self ..).trans_lt x.isLt
  rw [rotr, BitVec.toNat_or, BitVec.toNat_ushiftRight, BitVec.toNat_shiftLeft, Nat.shiftRight_eq_div_pow,
    Nat.shiftLeft_eq, Nat.or_mod_two_pow, Nat.mod_eq_of_lt hx]

theorem rotr_eq_rotateLeft (x : Word) {n : Nat} (h0 : 0 < n) (hn : n < 64) : rotr x n = x.rotateLeft (64 - n) := by
  rw [rotr, BitVec.rotateLeft_def, Nat.mod_eq_of_lt (by omega), Nat.sub_sub_self hn.le, BitVec.or_comm]

/-- Settles O4: the bits, the shifts and the left rotation hold of every amount in 1 to 63; the corner cases by evaluation at
the six amounts. -/
theorem rotateRightMovesBits : Obligations.RotateRightMovesBits := by
  intro n hmem
  have hbound : ∀ n ∈ [19, 23, 38, 41, 56, 57], 0 < n ∧ n < 64 := by decide
  have hcorner : ∀ n ∈ [19, 23, 38, 41, 56, 57], rotr 0 n = 0 ∧
      rotr 0xFFFFFFFFFFFFFFFF n = 0xFFFFFFFFFFFFFFFF ∧ rotr 1 n = BitVec.ofNat 64 (2 ^ (64 - n)) ∧
      rotr (BitVec.ofNat 64 (2 ^ 63)) n = BitVec.ofNat 64 (2 ^ (63 - n)) := by decide
  obtain ⟨h0, hn⟩ := hbound n hmem
  exact ⟨fun x i => rotr_getLsbD x hn, fun x => rotr_toNat x n, fun x => rotr_eq_rotateLeft x h0 hn, hcorner n hmem⟩

/-! ### MULHI (R105, R106, R107) -/

/-- The product of two words has 128 bits, its high half at most `2^64 - 2`. -/
theorem mul_div_le (x y : Word) : x.toNat * y.toNat / 2 ^ 64 ≤ 2 ^ 64 - 2 := by
  have hprod : x.toNat * y.toNat ≤ (2 ^ 64 - 1) * (2 ^ 64 - 1) :=
    Nat.mul_le_mul (Nat.le_pred_of_lt x.isLt) (Nat.le_pred_of_lt y.isLt)
  omega

theorem mulhi_toNat (x y : Word) : (mulhi x y).toNat = x.toNat * y.toNat / 2 ^ 64 := by
  have := mul_div_le x y
  rw [mulhi, BitVec.toNat_ofNat, Nat.mod_eq_of_lt (by omega)]

theorem mulhi_zero (x : Word) : mulhi x 0 = 0 := by
  simp [mulhi]

theorem zero_mulhi (x : Word) : mulhi 0 x = 0 := by
  simp [mulhi]

theorem mulhi_one (x : Word) : mulhi x 1 = 0 := by
  apply BitVec.eq_of_toNat_eq
  rw [mulhi_toNat, show (1 : Word).toNat = 1 from rfl, Nat.mul_one, Nat.div_eq_of_lt x.isLt]
  rfl

/-- `(2^64 - 1) * y` is `y - 1` words of 2^64 and `2^64 - y`. -/
theorem mulhi_allOnes {y : Word} (hy : 1 ≤ y.toNat) : mulhi 0xFFFFFFFFFFFFFFFF y = y - 1 := by
  have hlt : y.toNat < 2 ^ 64 := y.isLt
  have hle : (1 : Word) ≤ y := hy
  apply BitVec.eq_of_toNat_eq
  rw [mulhi_toNat, BitVec.toNat_sub_of_le hle, show (0xFFFFFFFFFFFFFFFF : Word).toNat = 2 ^ 64 - 1 from rfl,
    show (1 : Word).toNat = 1 from rfl]
  omega

/-- Settles O6: the value and its bound; the corner cases from the value, the examples by evaluation. -/
theorem highProductIsUnsigned : Obligations.HighProductIsUnsigned :=
  ⟨fun x y => ⟨mulhi_toNat x y, mulhi_toNat x y ▸ mul_div_le x y⟩, fun x => ⟨mulhi_zero x, mulhi_one x⟩,
    fun _ => mulhi_allOnes, by decide⟩

/-- Settles O7: quotient and remainder of the product by 2^64. -/
theorem productHalvesMakeTheProduct : Obligations.ProductHalvesMakeTheProduct := by
  intro x y
  rw [mulhi_toNat, mullo_toNat, Nat.mul_comm (_ / _), Nat.div_add_mod]

/-- The product of words as four products of their halves. -/
theorem mul_eq_partial_products (m n : Nat) :
    m * n = m / 2 ^ 32 * (n / 2 ^ 32) * 2 ^ 64 + (m % 2 ^ 32 * (n / 2 ^ 32) + m / 2 ^ 32 * (n % 2 ^ 32)) * 2 ^ 32 +
      m % 2 ^ 32 * (n % 2 ^ 32) := by
  conv_lhs => rw [← Nat.div_add_mod m (2 ^ 32), ← Nat.div_add_mod n (2 ^ 32)]
  ring

/-- A product of two halves of 32 bits. -/
theorem half_mul_half_le {m n : Nat} (hm : m < 2 ^ 32) (hn : n < 2 ^ 32) : m * n ≤ (2 ^ 32 - 1) * (2 ^ 32 - 1) :=
  Nat.mul_le_mul (Nat.le_pred_of_lt hm) (Nat.le_pred_of_lt hn)

/-- Settles O8: with the four partial products as numbers, each half of the product is a linear sum of them. -/
theorem fourPartialProductsAgree : Obligations.FourPartialProductsAgree := by
  intro x y
  have hx : x.toNat < 2 ^ 64 := x.isLt
  have hy : y.toNat < 2 ^ 64 := y.isLt
  have hprod := mul_eq_partial_products x.toNat y.toNat
  have hlh := half_mul_half_le (m := x.toNat % 2 ^ 32) (n := y.toNat / 2 ^ 32) (by omega) (by omega)
  have hhl := half_mul_half_le (m := x.toNat / 2 ^ 32) (n := y.toNat % 2 ^ 32) (by omega) (by omega)
  have hhh := half_mul_half_le (m := x.toNat / 2 ^ 32) (n := y.toNat / 2 ^ 32) (by omega) (by omega)
  have hll := half_mul_half_le (m := x.toNat % 2 ^ 32) (n := y.toNat % 2 ^ 32) (by omega) (by omega)
  have hlow : (mulloByHalves x y).toNat = x.toNat * y.toNat % 2 ^ 64 := by
    rw [mulloByHalves, mulMiddle, BitVec.toNat_ofNat, hprod]
    omega
  have hhigh : (mulhiByHalves x y).toNat = x.toNat * y.toNat / 2 ^ 64 := by
    rw [mulhiByHalves, mulMiddle, BitVec.toNat_ofNat, hprod]
    omega
  refine ⟨BitVec.eq_of_toNat_eq (hlow.trans (mullo_toNat x y).symm),
    BitVec.eq_of_toNat_eq (hhigh.trans (mulhi_toNat x y).symm), ?_, ?_⟩
  · rw [mulMiddle]
    omega
  · rw [mulMiddle]
    omega

/-! ### The accumulator updates (R112(3)) -/

/-- XOR with a fixed word is its own inverse. -/
theorem bxor_bijective (k : Word) : Function.Bijective fun x : Word => bxor x k :=
  Function.Involutive.bijective fun x => by
    simp only [bxor, BitVec.xor_assoc, BitVec.xor_self, BitVec.xor_zero]

/-- What BLOCK folds into an accumulator, from the other ones. -/
def butterflyTerm (s : State) (w0 w1 w2 w3 : Word) : Acc → Word
  | .a => mullo s.prime[5] (add (add w0 (rotr (add w2 s.d) 56)) w3)
  | .b => mullo s.prime[6] (add (add w1 (rotr (add w3 s.c) 19)) w2)
  | .c => add s.a (rotr w0 57)
  | .d => add s.b (rotr w1 38)

/-- Each accumulator is folded once, by a term of the old state (42_block_loop R131). -/
theorem butterfly_acc (s : State) (w0 w1 w2 w3 : Word) (r : Acc) :
    (butterfly s w0 w1 w2 w3).acc r = bxor (s.acc r) (butterflyTerm s w0 w1 w2 w3 r) := by
  cases r <;> rfl

/-- The term folded into an accumulator does not read it. -/
theorem butterflyTerm_setAcc (s : State) (w0 w1 w2 w3 : Word) (r : Acc) (v : Word) :
    butterflyTerm (s.setAcc r v) w0 w1 w2 w3 r = butterflyTerm s w0 w1 w2 w3 r := by
  cases r <;> rfl

/-- Settles O10: both updates are XOR with a word that does not read the accumulator written. -/
theorem accumulatorUpdatesAreBijections : Obligations.AccumulatorUpdatesAreBijections := by
  refine ⟨fun s w0 w1 w2 w3 r => ?_, fun s t o v p hto => ?_⟩
  · simp only [butterfly_acc, butterflyTerm_setAcc, State.acc_setAcc, if_true]
    exact bxor_bijective _
  · simp only [acc_mixup _ hto, State.acc_setAcc, if_true, if_neg hto]
    exact bxor_bijective _

/-! ### The tail (44_tail_dispatch R150, R160) -/

/-- The first tail phase by the number of tail operations, and above 32 MIX4 (log entry 14). -/
theorem firstTailPhase_code_by_operations (r : BitVec 6) :
    (r.toNat ≤ 32 → (firstTailPhase r).code =
      [(0b1001 : BitVec 4), 0b1000, 0b0111, 0b0110, 0b0101].getD ((r.toNat + 7) / 8) 0) ∧
    (32 < r.toNat → (firstTailPhase r).code = 0b0101) := by
  revert r
  decide

/-- Settles O24: DISPATCH goes to the first tail phase. -/
theorem dispatchByTailOperations : Obligations.DispatchByTailOperations := by
  intro s
  obtain ⟨hle, hgt⟩ := firstTailPhase_code_by_operations s.res
  rw [exec_dispatch, State.goto]
  exact ⟨fun h => by rw [hle h], fun h => by rw [hgt h]⟩

theorem State.setAcc_self (s : State) (r : Acc) : s.setAcc r (s.acc r) = s := by
  cases r <;> rfl

/-- Settles O26: both halves of the product of 0 are 0, so each accumulator is written with the value it has. -/
theorem mixupAbsorbsAWord : Obligations.MixupAbsorbsAWord := by
  intro s t o v p hto hsum
  have hlo : mullo 0 p = 0 := BitVec.zero_mul
  have ht : bxor (s.acc t) 0 = s.acc t := BitVec.xor_zero
  have ho : add (s.acc o) 0 = s.acc o := BitVec.add_zero _
  rw [mixup_of_ne s hto, show add (s.acc o) v = 0 from hsum, hlo, zero_mulhi, ht, ho, State.setAcc_self,
    State.setAcc_self]

end Sys2Proof.Machine
end

section
/-! The host's side of the buffer (00_scope R12; 20_memory R51, R71; 70_reset_and_hazards R233, R236) and the digest's
output (45_finalization R172; 70_reset_and_hazards R238). -/

namespace Sys2Proof.Machine

/-! ### MemWrite (00_scope R12) -/

@[simp] theorem leBytes_length (n : Nat) (v : Word) : (leBytes n v).length = n := by
  induction n generalizing v with
  | zero => rfl
  | succ n ih => rw [leBytes, List.length_cons, ih]

/-- Written bytes read back. -/
theorem Memory.readBytes_writeBytes (m : Memory) (i : Nat) (vs : List Byte) :
    Memory.readBytes (Memory.writeBytes m i vs) i vs.length = some vs := by
  rw [Memory.readBytes_eq_some_iff]
  refine ⟨rfl, fun j hj => ?_⟩
  rw [Memory.byteAt_writeBytes, if_pos ⟨by omega, by omega⟩, Nat.add_sub_cancel_left]

theorem Memory.byteAt_writeBytes_of_outside (m : Memory) {i j : Nat} {vs : List Byte} (h : j < i ∨ i + vs.length ≤ j) :
    Memory.byteAt (Memory.writeBytes m i vs) j = Memory.byteAt m j := by
  rw [Memory.byteAt_writeBytes, if_neg (by omega)]

/-- The `n` low bytes of a word make its residue modulo 2^(8n). -/
theorem leWord_leBytes_toNat (n : Nat) (v : Word) : (leWord (leBytes n v)).toNat = v.toNat % 2 ^ (8 * n) := by
  induction n generalizing v with
  | zero => simp [leBytes, leWord, Nat.mod_one]
  | succ n ih =>
    have hlt : v.toNat % 2 ^ (8 * (n + 1)) < 2 ^ 64 := (Nat.mod_le ..).trans_lt v.isLt
    rw [leBytes, leWord_cons_toNat, ih, BitVec.toNat_setWidth, BitVec.toNat_ushiftRight, Nat.shiftRight_eq_div_pow,
      ← Nat.mod_mul, ← Nat.pow_add, show 8 + 8 * n = 8 * (n + 1) by omega, Nat.mod_eq_of_lt hlt]

/-- Settles O42: the bytes of `MemWrite` are those of `leBytes`, written from `addr` on. -/
theorem memWriteReadsBack : Obligations.MemWriteReadsBack := by
  intro m addr n v _
  have hread := Memory.readBytes_writeBytes m addr (leBytes n v)
  rw [leBytes_length] at hread
  exact ⟨hread, leWord_leBytes_toNat n v, fun j hj => Memory.byteAt_writeBytes_of_outside m (by rwa [leBytes_length])⟩

/-! ### The host's two moves on the buffer -/

theorem changeBuffer_of_keeps {s : State} {m : Memory}
    (h : s.busy = false ∨ Memory.agreeBelow s.buf m s.lenq.toNat = true) : changeBuffer s m = .settle (s.setBuf m) := by
  rcases h with h | h <;> simp [changeBuffer, h]

theorem changeBuffer_of_changes {s : State} {m : Memory} (hbusy : s.busy = true)
    (h : ¬ Memory.agreeBelow s.buf m s.lenq.toNat = true) : changeBuffer s m = .stop .bufferChangedWhileBusy := by
  simp [changeBuffer, hbusy, h]

theorem step_of_fetch_settle {s t : State} (h : fetch s = .settle t) : step s = .next t := by
  rw [step, h]

theorem step_of_fetch_stop {s : State} {r : Refusal} (h : fetch s = .stop r) : step s = .refused r := by
  rw [step, h]

/-- A placed input agrees below an offset with a buffer that holds its bytes there, and nothing else. -/
theorem agreeBelow_ofBytes_iff {m : Memory} (h : Memory.wf m) {data : List Byte} (hlen : data.length < 2 ^ 64) (n : Nat) :
    Memory.agreeBelow m (Memory.ofBytes data) n = true ↔ ∀ j < n, Memory.byteAt m j = data[j]? := by
  rw [Memory.agreeBelow_iff h (Memory.ofBytes_wf hlen)]
  simp only [Memory.byteAt_ofBytes]

/-- A write changes nothing below an offset where the bytes written below it are there already. -/
theorem agreeBelow_writeBytes_iff {m : Memory} (h : Memory.wf m) {i : Nat} {data : List Byte}
    (hi : i + data.length ≤ 2 ^ 64) (n : Nat) :
    Memory.agreeBelow m (Memory.writeBytes m i data) n = true ↔
      ∀ j < data.length, i + j < n → Memory.byteAt m (i + j) = data[j]? := by
  rw [Memory.agreeBelow_iff h (Memory.writeBytes_wf h hi)]
  simp only [Memory.byteAt_writeBytes]
  constructor
  · intro hall j hj hn
    rw [hall _ hn, if_pos ⟨by omega, by omega⟩, Nat.add_sub_cancel_left]
  · intro hall j hn
    split
    case isTrue hj =>
      have := hall (j - i) (by omega) (by omega)
      rwa [Nat.add_sub_cancel' hj.1] at this
    case isFalse => rfl

section Moves

variable {s : State} {q : List Move} {data : List Byte} {addr : Word}

theorem fetch_of_place (hs : s.schedule = .place data :: q) (hlen : data.length < 2 ^ 64) :
    fetch s = changeBuffer (s.setSchedule q) (Memory.ofBytes data) := by
  simp only [fetch, hs, placeInput, hlen, if_true]

theorem fetch_of_place_too_long (hs : s.schedule = .place data :: q) (hlen : 2 ^ 64 ≤ data.length) :
    fetch s = .stop .inputTooLong := by
  simp only [fetch, hs, placeInput, Nat.not_lt.mpr hlen, if_false]

theorem fetch_of_write (hs : s.schedule = .write addr data :: q) (hlen : addr.toNat + data.length ≤ 2 ^ 64) :
    fetch s = changeBuffer (s.setSchedule q) (Memory.writeBytes s.buf addr.toNat data) := by
  simp only [fetch, hs, writeInput, hlen, if_true, State.setSchedule_buf]

theorem fetch_of_write_too_long (hs : s.schedule = .write addr data :: q) (hlen : 2 ^ 64 < addr.toNat + data.length) :
    fetch s = .stop .inputTooLong := by
  simp only [fetch, hs, writeInput, Nat.not_le.mpr hlen, if_false]

end Moves

/-- Settles O43: the placed buffer goes on where `changeBuffer` keeps the running bytes; an input too long is stopped before
it. -/
theorem hostPlacesTheInput : Obligations.HostPlacesTheInput := by
  intro s data q hwf hs
  refine ⟨fun hlen hkeeps => ⟨Memory.ofBytes data, ?_, Memory.ofBytes_wf hlen, Memory.byteAt_ofBytes data⟩,
    fun hlen => step_of_fetch_stop (fetch_of_place_too_long hs hlen)⟩
  have hkeeps' := hkeeps.imp_right (agreeBelow_ofBytes_iff hwf hlen s.lenq.toNat).mpr
  exact step_of_fetch_settle ((fetch_of_place hs hlen).trans (changeBuffer_of_keeps hkeeps'))

/-- Settles O44: each move is stopped where the changed buffer does not agree below `LENQ`; a write that goes on leaves
`writeBytes` of the buffer. -/
theorem bufferChangeWhileBusyRefused : Obligations.BufferChangeWhileBusyRefused := by
  intro s q hwf
  refine ⟨fun data hs hlen hbusy hchange => ?_, fun addr data hs =>
    ⟨fun hlen => step_of_fetch_stop (fetch_of_write_too_long hs hlen), fun hlen => ⟨fun ⟨hbusy, hchange⟩ => ?_,
      fun hkeeps => ⟨Memory.writeBytes s.buf addr.toNat data, ?_, Memory.writeBytes_wf hwf hlen, ?_,
        fun j => Memory.byteAt_writeBytes_of_outside s.buf⟩⟩⟩⟩
  · obtain ⟨j, hj, hne⟩ := hchange
    refine step_of_fetch_stop ((fetch_of_place hs hlen).trans (changeBuffer_of_changes hbusy fun hagree => hne ?_))
    exact (agreeBelow_ofBytes_iff hwf hlen s.lenq.toNat).mp hagree j hj
  · obtain ⟨j, hj, hlt, hne⟩ := hchange
    refine step_of_fetch_stop ((fetch_of_write hs hlen).trans (changeBuffer_of_changes hbusy fun hagree => hne ?_))
    exact (agreeBelow_writeBytes_iff hwf hlen s.lenq.toNat).mp hagree j hj hlt
  · have hkeeps' := hkeeps.imp_right (agreeBelow_writeBytes_iff hwf hlen s.lenq.toNat).mpr
    exact step_of_fetch_settle ((fetch_of_write hs hlen).trans (changeBuffer_of_keeps hkeeps'))
  · have hread := Memory.readBytes_writeBytes s.buf addr.toNat data
    exact ((Memory.readBytes_eq_some_iff ..).mp hread).2

/-! ### The digest's output -/

theorem State.digestOut_of_not_done {s : State} (h : s.done = false) : s.digestOut = none := by
  simp [digestOut, h]

/-- Settles O46: the output is open exactly in DONE, and the bytes are those of the word. -/
theorem digestReadOnlyWhileDone : Obligations.DigestReadOnlyWhileDone := by
  refine fun s => ⟨fun hph => if_pos ((State.done_eq_true_iff s).mpr hph), fun hph => ?_⟩
  have hout := State.digestOut_of_not_done (Bool.eq_false_iff.mpr (mt (State.done_eq_true_iff s).mp hph))
  exact ⟨hout, by rw [State.digestBytesOut, hout]; rfl⟩

/-- The eight bytes of a word, most significant first (20_memory R57). -/
theorem serialize_digestOrder (v : Word) :
    serialize Config.digestOrder v =
      [v.extractLsb' 56 8, v.extractLsb' 48 8, v.extractLsb' 40 8, v.extractLsb' 32 8, v.extractLsb' 24 8,
        v.extractLsb' 16 8, v.extractLsb' 8 8, v.extractLsb' 0 8] := rfl

/-- Read as a big-endian number they make the word. -/
theorem serialize_foldl (v : Word) :
    (serialize Config.digestOrder v).foldl (fun n b => n * 2 ^ 8 + b.toNat) 0 = v.toNat := by
  have hv : v.toNat < 2 ^ 64 := v.isLt
  simp only [serialize_digestOrder, List.foldl_cons, List.foldl_nil, BitVec.extractLsb'_toNat, Nat.shiftRight_eq_div_pow]
  omega

/-- Settles O41: in DONE the output is the serialized register. -/
theorem digestBytesAreBigEndian : Obligations.DigestBytesAreBigEndian := by
  intro s hdone
  have hout := State.digestBytesOut_of_done hdone
  refine ⟨by rw [hout, serialize_digestOrder], fun vs hvs => ?_⟩
  obtain rfl := Option.some.inj (hout.symm.trans hvs)
  exact serialize_foldl s.digest

end Sys2Proof.Machine
end
